-- ==== Sys2Proof/Config.lean ====
section
/-!
DEFINITION. What an implementation of this machine fixes: the three parameters of 00_scope.md R9 (`W`, `OPCODE_BASE`,
`REM_MODE`), each at the value the spec takes for this hardware, the sizes that follow from `W` (R5 to R7), and the
canonical enumeration of the 19 operations (R8).

The spec leaves no value undefined, so the model has no free value: no `opaque` constant and no counter in State.
-/

namespace Sys2Proof

/-- The remainder convention of `divide` (00_scope.md R9, 43_arithmetic.md R153). -/
inductive RemMode where
  | floored      -- the remainder has the sign of the divisor
  | truncated    -- the remainder has the sign of the dividend
  deriving DecidableEq, Repr

/-- `W`, the word size in bits (R5). The types of Word.lean and State.lean are written for this value. -/
def Config.wordBits : Nat := 8

/-- `MEM_SIZE = 2^W` (R6). -/
def Config.memSize : Nat := 2 ^ Config.wordBits

/-- `STACK_SIZE = 2^W` (R7). -/
def Config.stackSize : Nat := 2 ^ Config.wordBits

/-- `NUM_OPS` (R8). -/
def Config.numOps : Nat := 19

/-- `OPCODE_BASE`, the opcode of the first operation (R9, 30_encoding.md R63).
DESIGN CHOICE of the spec, D2: the source does not say whether positions count from 0 or from 1. Log entry 2. Unsafe. -/
def Config.opcodeBase : Int := 0

/-- `REM_MODE` (R9, R153).
DESIGN CHOICE of the spec, D4: the source writes "mod" and gives no sign convention. Log entry 3. Unsafe. -/
def Config.remMode : RemMode := .floored

/-- The parameters a model takes as arguments (R9; 93_implementation_defined.md I5, I6). The definitions whose names end in
`In` or `At` take them; `W` is fixed, as R5 allows. -/
structure Parameters where
  /-- `OPCODE_BASE`. -/
  opcodeBase : Int
  /-- `REM_MODE`. -/
  remMode : RemMode
  deriving DecidableEq, Repr

/-- The values R9 admits: `OPCODE_BASE` is 0 or 1 (I6), and `REM_MODE` is either convention (I5). -/
def Parameters.admitted (p : Parameters) : Prop := p.opcodeBase = 0 ∨ p.opcodeBase = 1

/-- This hardware's parameters, the defaults of R9. -/
def Config.parameters : Parameters := { opcodeBase := Config.opcodeBase, remMode := Config.remMode }

/-- The canonical enumeration (R8), in the order of 30_encoding.md R63: an operation's NAME, with no operand. The
assembler's nodes (R80) and the step report (40_dispatch.md R107) carry one. -/
inductive Operation where
  | halt
  | noOperation
  | push
  | pop
  | store
  | load
  | add
  | subtract
  | multiply
  | divide
  | less
  | greater
  | same
  | different
  | and
  | or
  | not
  | jump
  | jumpConditionally
  deriving DecidableEq, Repr

end Sys2Proof
end

