-- ==== Sys2Proof/Word.lean ====
section
/-!
DEFINITION. The Word (00_scope.md R5, R12) and the two range tests of R10.

A Word is the machine's only value type: a signed integer in `[-128, 127]`, held as its 8-bit two's-complement pattern
(R12, D3). `sext_W` of R12 is `BitVec.toInt` and `bits_W` is `Word.ofValue`. No rule computes on the pattern: every
operation converts to integers, computes exactly, and converts back after the range check (R10).
-/

namespace Sys2Proof

/-- A Word: `W = 8` bits, read as a signed integer. -/
abbrev Word := BitVec 8

/-- `WORD_MIN = -2^(W-1)` (R5). -/
def wordMin : Int := -(2 ^ (Config.wordBits - 1))

/-- `WORD_MAX = 2^(W-1) - 1` (R5). -/
def wordMax : Int := 2 ^ (Config.wordBits - 1) - 1

/-- `inWord(v)` (R10). -/
abbrev inWord (v : Int) : Prop := wordMin ≤ v ∧ v ≤ wordMax

/-- `inMem(a)` (R10). -/
abbrev inMem (a : Int) : Prop := 0 ≤ a ∧ a < (Config.memSize : Int)

/-- `bits_W(v)` (R12), used only on a `v` with `inWord v`. -/
def Word.ofValue (v : Int) : Word := BitVec.ofInt 8 v

end Sys2Proof
end

