-- ==== Sys2Proof/Syntax.lean ====
section
/-!
DEFINITION. The instructions: one constructor per row of spec/opcode_table.json, in the table's order (30_encoding.md
R63). `push` alone has an operand, its immediate Word (R61, R65); every other operand comes from the stack
(10_state.md R20).
-/

namespace Sys2Proof

/-- The 19 instructions; beside each its mnemonic (R87) and its rule. -/
inductive Instr where
  | halt                 -- ha, R120
  | noOperation          -- no, R121
  | push (imm : Word)    -- pu, R122; `imm` is the whole Word at `IP + 1` (R65)
  | pop                  -- po, R123
  | store                -- st, R140
  | load                 -- lo, R141
  | add                  -- ad, R150
  | subtract             -- su, R151
  | multiply             -- mu, R152
  | divide               -- di, R153
  | less                 -- le, R170
  | greater              -- gr, R171
  | same                 -- sa, R172
  | different            -- df, R173
  | and                  -- an, R174
  | or                   -- or, R175
  | not                  -- nt, R176
  | jump                 -- ju, R190
  | jumpConditionally    -- jc, R191
  deriving DecidableEq, Repr

end Sys2Proof
end

