-- ==== Sys2Proof/Decode.lean ====
section
/-!
DEFINITION. Decoding (30_encoding.md R60 to R68) and, after it, the encoder, written from the same opcode map (R63).

Both take the parameter `OPCODE_BASE` (00_scope.md R9); `decode` and `encode` are they at `Config.opcodeBase`.
Decoding is total on every Word (R64) and rejects by name.
-/

namespace Sys2Proof

/-- The position of an operation in the canonical enumeration, counted from 0 (R63). -/
def Operation.ordinal : Operation → Nat
  | .halt => 0
  | .noOperation => 1
  | .push => 2
  | .pop => 3
  | .store => 4
  | .load => 5
  | .add => 6
  | .subtract => 7
  | .multiply => 8
  | .divide => 9
  | .less => 10
  | .greater => 11
  | .same => 12
  | .different => 13
  | .and => 14
  | .or => 15
  | .not => 16
  | .jump => 17
  | .jumpConditionally => 18

/-- The operation at a position of the canonical enumeration (R63). -/
def Operation.ofOrdinal : Nat → Option Operation
  | 0 => some .halt
  | 1 => some .noOperation
  | 2 => some .push
  | 3 => some .pop
  | 4 => some .store
  | 5 => some .load
  | 6 => some .add
  | 7 => some .subtract
  | 8 => some .multiply
  | 9 => some .divide
  | 10 => some .less
  | 11 => some .greater
  | 12 => some .same
  | 13 => some .different
  | 14 => some .and
  | 15 => some .or
  | 16 => some .not
  | 17 => some .jump
  | 18 => some .jumpConditionally
  | _ => none

/-- The opcode of an operation under a given `OPCODE_BASE` (R9). -/
def Operation.opcodeAt (base : Int) (op : Operation) : Int := base + op.ordinal

/-- The opcode of an operation (R63). -/
def Operation.opcode (op : Operation) : Int := op.opcodeAt Config.opcodeBase

/-- The operation an instruction performs. -/
def Instr.operation : Instr → Operation
  | .halt => .halt
  | .noOperation => .noOperation
  | .push _ => .push
  | .pop => .pop
  | .store => .store
  | .load => .load
  | .add => .add
  | .subtract => .subtract
  | .multiply => .multiply
  | .divide => .divide
  | .less => .less
  | .greater => .greater
  | .same => .same
  | .different => .different
  | .and => .and
  | .or => .or
  | .not => .not
  | .jump => .jump
  | .jumpConditionally => .jumpConditionally

/-- An instruction's length in Words, known from its opcode alone (R61, R66). -/
def Operation.length : Operation → Nat
  | .push => 2
  | .halt | .noOperation | .pop | .store | .load | .add | .subtract | .multiply | .divide | .less | .greater | .same
  | .different | .and | .or | .not | .jump | .jumpConditionally => 1

/-- Why a decoding is rejected. -/
inductive DecodeError where
  | invalidOpcode       -- the Word is none of the 19 opcodes (R64, R67)
  | missingImmediate    -- the Word is `push`, and no Word follows it (R65)
  deriving DecidableEq, Repr

/-- What decoding answers. -/
inductive Decoded where
  | instr (i : Instr) (rest : List Word)    -- the instruction, and the Words after it
  | rejected (e : DecodeError)
  deriving DecidableEq, Repr

/-- The operation whose opcode is `w`, if there is one (R64). -/
def decodeOperationAt (base : Int) (w : Word) : Option Operation :=
  if base ≤ w.toInt then Operation.ofOrdinal (w.toInt - base).toNat else none

/-- Decode the instruction whose opcode Word is `w`, with the Words `rest` after it (R61, R64, R65). -/
def decodeAt (base : Int) (w : Word) (rest : List Word) : Decoded :=
  match decodeOperationAt base w with
  | none => .rejected .invalidOpcode
  | some .halt => .instr .halt rest
  | some .noOperation => .instr .noOperation rest
  | some .push =>
    match rest with
    | [] => .rejected .missingImmediate
    | imm :: rest' => .instr (.push imm) rest'
  | some .pop => .instr .pop rest
  | some .store => .instr .store rest
  | some .load => .instr .load rest
  | some .add => .instr .add rest
  | some .subtract => .instr .subtract rest
  | some .multiply => .instr .multiply rest
  | some .divide => .instr .divide rest
  | some .less => .instr .less rest
  | some .greater => .instr .greater rest
  | some .same => .instr .same rest
  | some .different => .instr .different rest
  | some .and => .instr .and rest
  | some .or => .instr .or rest
  | some .not => .instr .not rest
  | some .jump => .instr .jump rest
  | some .jumpConditionally => .instr .jumpConditionally rest

/-- R64 at the hardware's `OPCODE_BASE`. -/
def decodeOperation (w : Word) : Option Operation := decodeOperationAt Config.opcodeBase w

/-- Decoding at the hardware's `OPCODE_BASE`. -/
def decode (w : Word) (rest : List Word) : Decoded := decodeAt Config.opcodeBase w rest

/-- The Words of an instruction under a given `OPCODE_BASE` (R61, R62): the opcode Word, and for `push` its immediate. -/
def encodeAt (base : Int) (i : Instr) : List Word :=
  match i with
  | .push imm => [Word.ofValue (i.operation.opcodeAt base), imm]
  | .halt | .noOperation | .pop | .store | .load | .add | .subtract | .multiply | .divide | .less | .greater | .same
  | .different | .and | .or | .not | .jump | .jumpConditionally => [Word.ofValue (i.operation.opcodeAt base)]

/-- The Words of an instruction (R63). -/
def encode (i : Instr) : List Word := encodeAt Config.opcodeBase i

/-- Decode a sequence of Words from its first Word on, one instruction after another, until no Word is left: the way
sequential execution reads an image (R60, R66). The first argument bounds the number of instructions. -/
def decodeAll : Nat → List Word → Option (List Instr)
  | _, [] => some []
  | 0, _ :: _ => none
  | n + 1, w :: rest =>
    match decode w rest with
    | .instr i rest' => (decodeAll n rest').map (i :: ·)
    | .rejected _ => none

/-- The instruction decoded from the bits of an opcode-table row: Word 0 is bits 7..0, Word 1 bits 15..8, and every bit
from `nbits` on is 0. -/
def decodeTableWord (nbits w : Nat) : Option Instr :=
  match decode (BitVec.ofNat 8 (w % 2 ^ nbits)) [BitVec.ofNat 8 (w % 2 ^ nbits / 256)] with
  | .instr i _ => some i
  | .rejected _ => none

end Sys2Proof
end

