-- ==== Sys2Proof/WellFormed.lean ====
section
/-!
DEFINITION. The checks on an instruction or an image before it is placed in Memory.

A term of Instr has no ill-formed value of its own: its only operand, `push`'s immediate, is a Word by type (10_state.md
R20, 30_encoding.md R65), and any Word is allowed there. What can be ill-formed is a PLACEMENT, an instruction that
does not fit in Memory at its address, and an IMAGE (70_reset_and_hazards.md R231).
-/

namespace Sys2Proof

/-- The instruction `i`, placed at address `a`, lies inside Memory: its opcode Word and, for `push`, its immediate
("must be a valid Memory address, i.e. IP+1 < memorySize", R65). -/
def Instr.fitsAt (i : Instr) (a : Nat) : Bool := decide (a + i.operation.length ≤ Config.memSize)

/-- The integers `ws` are an image that LOAD_IMAGE accepts (R231): at least one, at most `MEM_SIZE`, each a Word. -/
def imageWellFormed (ws : List Int) : Bool :=
  !ws.isEmpty && decide (ws.length ≤ Config.memSize) && ws.all fun v => decide (inWord v)

end Sys2Proof
end

