-- ==== Sys2Proof/Machine/State.lean ====
section
/-!
DEFINITION. The whole architectural state of one machine instance (10_state.md): IP, SC, the stack slots, Memory, STATUS
and FAULT, and nothing else. The program text, the Parse Nodes and the step reports are not state (10_state.md's opening).
-/

namespace Sys2Proof.Machine

/-- An array of 256 Words, index 0 to 255, held as the list of its entries that are not 0, by rising index. An index not
listed reads 0, which is what reset leaves in every Memory cell and every stack slot (R22, R25, R230). Both Memory and
the stack's slots are such arrays; `Memory.wf` (Machine/Ops.lean) is the canonical form. -/
abbrev Memory := List Host.Cell

/-- `STATUS` (R27). -/
inductive Status where
  | ready      -- encoded 0; `execute` runs operations
  | halted     -- encoded 1; entered by executing `halt`
  | faulted    -- encoded 2; entered by a failed step
  deriving DecidableEq, Repr

/-- `FAULT.kind`: the fault codes of 60_exceptions.md R201. -/
inductive FaultKind where
  | none                     -- 0: the reset value
  | invalidOpcode            -- 1: `M[IP]` is not one of the 19 opcodes
  | stackUnderflow           -- 2: `SC < pops(op)`
  | rangeImmediateAddress    -- 3: `push` with `IP + 1` outside Memory
  | rangeMemoryAddress       -- 4: `load` or `store` with the address outside Memory
  | rangeValue               -- 5: a pushed result is not a Word
  | rangeStackOverflow       -- 6: `SC` would exceed STACK_SIZE
  | rangeIp                  -- 7: the new IP is outside Memory
  deriving DecidableEq, Repr

/-- `FAULT`, the record of the last failed step (R28). -/
structure FaultRecord where
  /-- The fault's code, or `none`. -/
  kind : FaultKind
  /-- `IP` when the step failed. -/
  ip : Fin 256
  /-- The Word fetched at that `IP`. -/
  word : Word
  deriving DecidableEq, Repr

/-- The machine's state (10_state.md, opening and R30). -/
structure State where
  /-- `IP`, the address of the instruction to run (R21): 0 to 255, not a Word. -/
  ip : Fin 256
  /-- `SC`, the stack counter (R23): 0 to 256. -/
  sc : Fin 257
  /-- `S[0..255]`, the stack's slots (R22), those at or above `SC` included (R24, R31). -/
  stack : Memory
  /-- `M[0..255]`, Memory (R25). -/
  mem : Memory
  /-- `STATUS` (R27). -/
  status : Status
  /-- `FAULT` (R28). -/
  fault : FaultRecord
  deriving DecidableEq, Repr

/-- The reasons a step stops WITHOUT a next state. There is none: the step is total (40_dispatch.md R109), and a failed
step of this machine is itself a change of state, STATUS and FAULT (60_exceptions.md R202), so it is a next state. Safe. -/
inductive Fault where
  deriving DecidableEq, Repr

/-- The reasons an instruction has no meaning in the model. -/
inductive Refusal where
  /-- Raised by `exec` for an instruction whose meaning is not written, by its mnemonic: by none, all 19 are. Safe. -/
  | notModelled (mnemonic : String)
  deriving DecidableEq, Repr

/-- The state after RESET (70_reset_and_hazards.md R230): every Memory cell and every stack slot 0, SC 0, IP 0, STATUS
READY, FAULT (NONE, 0, 0). -/
def State.reset : State :=
  { ip := 0, sc := 0, stack := [], mem := [], status := .ready, fault := { kind := .none, ip := 0, word := 0 } }

end Sys2Proof.Machine
end

