-- ==== Sys2Proof/Machine/Ops.lean ====
section
/-!
DEFINITION. The operations every instruction shares: reading and writing an array of Words, the effect record (40_dispatch.md
R103), its validation (R105) and commit (R106), and TAKING A FAULT (60_exceptions.md R202). There is no return from a
fault by an instruction: only RESET leaves FAULTED (R205), see Machine/HostInterface.lean.
-/

namespace Sys2Proof.Machine

/-- The Word at index `a`: 0 where `a` is not listed. -/
def Memory.read : Memory → Nat → Word
  | [], _ => 0
  | (b, w) :: m, a => if b = a then w else Memory.read m a

/-- Set index `a` to 0: no entry. -/
def Memory.clear (m : Memory) (a : Nat) : Memory := m.filter fun c => c.1 ≠ a

/-- Put an entry before the first entry of a higher index. -/
def Memory.place : Memory → Nat → Word → Memory
  | [], a, v => [(a, v)]
  | (b, w) :: m, a, v => if a < b then (a, v) :: (b, w) :: m else (b, w) :: Memory.place m a v

/-- `x[a] <- v`, keeping the canonical form: a Word 0 has no entry. -/
def Memory.write (m : Memory) (a : Nat) (v : Word) : Memory :=
  if v = 0 then m.clear a else (m.clear a).place a v

/-- Canonical form, for the entries of index `lo` on: indexes strictly rising and below 256, no entry equal to 0. -/
def Memory.wfFrom : Nat → Memory → Bool
  | _, [] => true
  | lo, (a, v) :: m => decide (lo ≤ a) && decide (a < 256) && decide (v ≠ 0) && Memory.wfFrom (a + 1) m

/-- The canonical form. -/
def Memory.wf (m : Memory) : Bool := m.wfFrom 0

/-- Write the Words `vs` to the indexes from `a` on. -/
def Memory.writeAll (m : Memory) (a : Nat) : List Word → Memory
  | [] => m
  | v :: vs => (m.write a v).writeAll (a + 1) vs

/-- Set the `n` indexes from `a` on to 0 (R106's zero-fill). -/
def Memory.zeroFill (m : Memory) (a : Nat) : Nat → Memory
  | 0 => m
  | n + 1 => (m.write a 0).zeroFill (a + 1) n

/-- `S[i]` (10_state.md R22). -/
def State.slot (s : State) (i : Nat) : Word := s.stack.read i

/-- `M[a]` (R25); MemRead of 00_scope.md R11. -/
def State.cell (s : State) (a : Nat) : Word := s.mem.read a

/-- `w`, the Word at `IP` (40_dispatch.md R101). -/
def State.fetchedWord (s : State) : Word := s.cell s.ip.val

/-- The effect record (R103). Its values are exact integers; R105 checks their ranges. -/
structure Effect where
  /-- How many stack entries are removed. -/
  pops : Nat
  /-- The integers to push; the last becomes the new top. -/
  pushes : List Int
  /-- `some (a, v)` means `M[a] <- v`. -/
  write : Option (Int × Int)
  /-- The signed change of IP. -/
  ipDelta : Int
  /-- Whether the machine halts. -/
  halt : Bool
  deriving DecidableEq, Repr

/-- The effect of an operation that pops, pushes and goes on to the next Word: no write, `ipDelta` 1, no halt. -/
def Effect.replace (pops : Nat) (pushes : List Int) : Effect :=
  { pops := pops, pushes := pushes, write := none, ipDelta := 1, halt := false }

/-- What a handler or a check answers: an effect, or the fault it raises. -/
abbrev Proposal := Except FaultKind Effect

/-- Check 1 of R105. -/
abbrev Effect.pushesInRange (e : Effect) : Prop := ∀ v ∈ e.pushes, inWord v

/-- Check 2 of R105, both halves: `none` where it passes. -/
def Effect.writeFault (e : Effect) : Option FaultKind :=
  match e.write with
  | none => none
  | some (a, v) => if ¬ inMem a then some .rangeMemoryAddress else if ¬ inWord v then some .rangeValue else none

/-- Check 3 of R105. -/
abbrev Effect.stackInRange (e : Effect) (s : State) : Prop :=
  (s.sc.val : Int) - e.pops + e.pushes.length ≤ (Config.stackSize : Int)

/-- Check 4 of R105. -/
abbrev Effect.ipInRange (e : Effect) (s : State) : Prop := e.halt = true ∨ inMem ((s.ip.val : Int) + e.ipDelta)

/-- Validation (R105): the four checks in order; the first that fails decides the fault. -/
def validate (e : Effect) (s : State) : Proposal :=
  if ¬ e.pushesInRange then .error .rangeValue
  else
    match e.writeFault with
    | some k => .error k
    | none =>
      if ¬ e.stackInRange s then .error .rangeStackOverflow
      else if ¬ e.ipInRange s then .error .rangeIp
      else .ok e

/-- The stack part of commit (R106): zero-fill the popped slots, then write the pushes from the new bottom up. -/
def commitStack (stack : Memory) (sc : Nat) (e : Effect) : Memory :=
  (stack.zeroFill (sc - e.pops) e.pops).writeAll (sc - e.pops) (e.pushes.map Word.ofValue)

/-- The Memory part of commit (R106). -/
def commitMemory (mem : Memory) (e : Effect) : Memory :=
  match e.write with
  | none => mem
  | some (a, v) => mem.write a.toNat (Word.ofValue v)

/-- Commit (R106): apply a validated effect, all of it at once. -/
def commit (e : Effect) (s : State) : State :=
  { ip := if e.halt then s.ip else Fin.ofNat 256 ((s.ip.val : Int) + e.ipDelta).toNat
    sc := Fin.ofNat 257 (s.sc.val - e.pops + e.pushes.length)
    stack := commitStack s.stack s.sc.val e
    mem := commitMemory s.mem e
    status := if e.halt then .halted else s.status
    fault := s.fault }

/-- TAKING A FAULT (60_exceptions.md R202): the effect is discarded whole, STATUS becomes FAULTED, and FAULT records the
kind, IP and the fetched Word. Nothing else changes, and control goes nowhere. -/
def takeFault (k : FaultKind) (s : State) : State :=
  { s with status := .faulted, fault := { kind := k, ip := s.ip, word := s.fetchedWord } }

/-- The shared part of every operation before anything changes: the operand-count check (R104), then the handler (R103),
then validation (R105). -/
def checked (pops : Nat) (handler : State → Proposal) (s : State) : Proposal :=
  if s.sc.val < pops then .error .stackUnderflow
  else
    match handler s with
    | .error k => .error k
    | .ok e => validate e s

/-- The shared part after the checks: commit the effect, or take the fault (R111). -/
def conclude (p : Proposal) (s : State) : State :=
  match p with
  | .ok e => commit e s
  | .error k => takeFault k s

/-- One operation, from its operand count and its handler (R111): it always has a next state. -/
def perform (pops : Nat) (handler : State → Proposal) (s : State) : Host.Outcome State Fault Refusal :=
  .next (conclude (checked pops handler s) s)

end Sys2Proof.Machine
end

