-- ==== Sys2Proof/Machine/Operands.lean ====
section
/-!
DEFINITION. Where operands come from: the stack's `top` and `second` (00_scope.md R13, 10_state.md R22), `push`'s immediate
(30_encoding.md R65), and how many stack entries each operation needs (40_dispatch.md R104).
-/

namespace Sys2Proof.Machine

/-- `top = S[SC-1]` as an integer, read before the step changes anything (R11, R13). -/
def State.top (s : State) : Int := (s.slot (s.sc.val - 1)).toInt

/-- `second = S[SC-2]` as an integer (R11, R13). -/
def State.second (s : State) : Int := (s.slot (s.sc.val - 2)).toInt

/-- `IP` as an integer. -/
def State.ipInt (s : State) : Int := (s.ip.val : Int)

/-- The Words after the opcode Word that decoding may read: `M[IP+1]` where that is in Memory, else none (R65). -/
def State.afterOpcode (s : State) : List Word :=
  if inMem (s.ipInt + 1) then [s.cell (s.ip.val + 1)] else []

/-- `pops(op)`, the column "Pops" of R104. -/
def popsOf : Operation → Nat
  | .halt => 0
  | .noOperation => 0
  | .push => 0
  | .pop => 1
  | .store => 2
  | .load => 1
  | .add => 2
  | .subtract => 2
  | .multiply => 2
  | .divide => 2
  | .less => 2
  | .greater => 2
  | .same => 2
  | .different => 2
  | .and => 2
  | .or => 2
  | .not => 1
  | .jump => 1
  | .jumpConditionally => 2

end Sys2Proof.Machine
end

