-- ==== Sys2Proof/Machine/Flags.lean ====
section
/-!
DEFINITION. The machine has no flags (10_state.md R29): a truth value is a Word on the stack. Here are the ways a Word is
made from, and read as, a truth value (44_compare_logic.md R177), the numeric codes of STATUS and FAULT.kind, and the
source's classes of errors.
-/

namespace Sys2Proof.Machine

/-- `b2w(c)`: 1 if the condition holds, else 0 (00_scope.md R11). -/
def b2w (c : Bool) : Int := if c then 1 else 0

/-- What `and`, `or` and `jumpConditionally` take as true: only the Word 1 (R177). -/
def isOne (v : Int) : Bool := decide (v = 1)

/-- What `not` takes as false: only the Word 0 (R177). -/
def isZero (v : Int) : Bool := decide (v = 0)

/-- The 2-bit encoding of STATUS (10_state.md R27, R30). -/
def Status.code : Status → BitVec 2
  | .ready => 0
  | .halted => 1
  | .faulted => 2

/-- The 4-bit code of a fault (10_state.md R30, 60_exceptions.md R201). -/
def FaultKind.code : FaultKind → BitVec 4
  | .none => 0
  | .invalidOpcode => 1
  | .stackUnderflow => 2
  | .rangeImmediateAddress => 3
  | .rangeMemoryAddress => 4
  | .rangeValue => 5
  | .rangeStackOverflow => 6
  | .rangeIp => 7

/-- The source's four classes of errors (60_exceptions.md R200). -/
inductive ErrorClass where
  | rangeError
  | stackUnderflow
  | invalidOpcode
  | syntaxError       -- the assembler's only
  deriving DecidableEq, Repr

/-- The class of a step fault (R201). -/
def FaultKind.errorClass : FaultKind → Option ErrorClass
  | .none => Option.none
  | .invalidOpcode => some .invalidOpcode
  | .stackUnderflow => some .stackUnderflow
  | .rangeImmediateAddress | .rangeMemoryAddress | .rangeValue | .rangeStackOverflow | .rangeIp => some .rangeError

end Sys2Proof.Machine
end

