-- ==== Sys2Proof/Machine/Arithmetic.lean ====
section
/-!
DEFINITION. add, subtract, multiply, divide (43_arithmetic.md R150 to R157). Every result is the exact integer (R154); the
range check of R105 faults what is not a Word, and nothing wraps.
-/

namespace Sys2Proof.Machine

/-- R150. -/
def handleAdd (s : State) : Proposal := .ok (Effect.replace 2 [s.top + s.second])

/-- R151: the minuend is `top`. -/
def handleSubtract (s : State) : Proposal := .ok (Effect.replace 2 [s.top - s.second])

/-- R152. -/
def handleMultiply (s : State) : Proposal := .ok (Effect.replace 2 [s.top * s.second])

/-- The quotient of R153, in both modes: the dividend itself where the divisor is 0, else `floor(d / s)`. -/
def quotient (d s : Int) : Int := if s = 0 then d else Int.fdiv d s

/-- The remainder of R153: the dividend itself where the divisor is 0, else by `REM_MODE`. -/
def remainder (mode : RemMode) (d s : Int) : Int :=
  if s = 0 then d
  else
    match mode with
    | .floored => d - s * Int.fdiv d s
    | .truncated => d - s * Int.tdiv d s

/-- R153 under a given `REM_MODE`: the remainder, then the quotient on top. -/
def handleDivideIn (mode : RemMode) (s : State) : Proposal :=
  .ok (Effect.replace 2 [remainder mode s.top s.second, quotient s.top s.second])

/-- R153 at the hardware's `REM_MODE` (D4; log entry 3). -/
def handleDivide (s : State) : Proposal := handleDivideIn Config.remMode s

/-- `ad` (R150). -/
def execAdd (s : State) : Host.Outcome State Fault Refusal := perform (popsOf .add) handleAdd s

/-- `su` (R151). -/
def execSubtract (s : State) : Host.Outcome State Fault Refusal := perform (popsOf .subtract) handleSubtract s

/-- `mu` (R152). -/
def execMultiply (s : State) : Host.Outcome State Fault Refusal := perform (popsOf .multiply) handleMultiply s

/-- `di` (R153). -/
def execDivide (s : State) : Host.Outcome State Fault Refusal := perform (popsOf .divide) handleDivide s

end Sys2Proof.Machine
end

