-- ==== Sys2Proof/Machine/CompareLogic.lean ====
section
/-!
DEFINITION. less, greater, same, different, and, or, not (44_compare_logic.md R170 to R177). Comparisons are signed and take
their operands as `(top, second)` (43_arithmetic.md R156); the logic operations are not bitwise.
-/

namespace Sys2Proof.Machine

/-- R170. -/
def handleLess (s : State) : Proposal := .ok (Effect.replace 2 [b2w (decide (s.top < s.second))])

/-- R171. -/
def handleGreater (s : State) : Proposal := .ok (Effect.replace 2 [b2w (decide (s.top > s.second))])

/-- R172. -/
def handleSame (s : State) : Proposal := .ok (Effect.replace 2 [b2w (decide (s.top = s.second))])

/-- R173. -/
def handleDifferent (s : State) : Proposal := .ok (Effect.replace 2 [b2w (decide (s.top ≠ s.second))])

/-- R174. -/
def handleAnd (s : State) : Proposal := .ok (Effect.replace 2 [b2w (isOne s.top && isOne s.second)])

/-- R175. -/
def handleOr (s : State) : Proposal := .ok (Effect.replace 2 [b2w (isOne s.top || isOne s.second)])

/-- R176. -/
def handleNot (s : State) : Proposal := .ok (Effect.replace 1 [b2w (isZero s.top)])

/-- `le` (R170). -/
def execLess (s : State) : Host.Outcome State Fault Refusal := perform (popsOf .less) handleLess s

/-- `gr` (R171). -/
def execGreater (s : State) : Host.Outcome State Fault Refusal := perform (popsOf .greater) handleGreater s

/-- `sa` (R172). -/
def execSame (s : State) : Host.Outcome State Fault Refusal := perform (popsOf .same) handleSame s

/-- `df` (R173). -/
def execDifferent (s : State) : Host.Outcome State Fault Refusal := perform (popsOf .different) handleDifferent s

/-- `an` (R174). -/
def execAnd (s : State) : Host.Outcome State Fault Refusal := perform (popsOf .and) handleAnd s

/-- `or` (R175). -/
def execOr (s : State) : Host.Outcome State Fault Refusal := perform (popsOf .or) handleOr s

/-- `nt` (R176). -/
def execNot (s : State) : Host.Outcome State Fault Refusal := perform (popsOf .not) handleNot s

end Sys2Proof.Machine
end

