-- ==== Sys2Proof/Machine/Control.lean ====
section
/-!
DEFINITION. halt, noOperation, push, pop (41_control_stack.md R120 to R123).
-/

namespace Sys2Proof.Machine

/-- R120. IP unchanged and `ipDelta` 0 are the spec's own choice (D5; log entry 4). -/
def handleHalt (_ : State) : Proposal :=
  .ok { pops := 0, pushes := [], write := none, ipDelta := 0, halt := true }

/-- R121. -/
def handleNoOperation (_ : State) : Proposal := .ok (Effect.replace 0 [])

/-- R122. The immediate is the one decoding read at `IP + 1`; where `IP + 1` is outside Memory there is none. -/
def handlePush (imm : Word) (s : State) : Proposal :=
  if ¬ inMem (s.ipInt + 1) then .error .rangeImmediateAddress
  else .ok { pops := 0, pushes := [imm.toInt], write := none, ipDelta := 2, halt := false }

/-- R123. -/
def handlePop (_ : State) : Proposal := .ok (Effect.replace 1 [])

/-- `ha` (R120). -/
def execHalt (s : State) : Host.Outcome State Fault Refusal := perform (popsOf .halt) handleHalt s

/-- `no` (R121). -/
def execNoOperation (s : State) : Host.Outcome State Fault Refusal := perform (popsOf .noOperation) handleNoOperation s

/-- `pu` (R122). -/
def execPush (imm : Word) (s : State) : Host.Outcome State Fault Refusal := perform (popsOf .push) (handlePush imm) s

/-- `po` (R123). -/
def execPop (s : State) : Host.Outcome State Fault Refusal := perform (popsOf .pop) handlePop s

end Sys2Proof.Machine
end

