-- ==== Sys2Proof/Machine/Jumps.lean ====
section
/-!
DEFINITION. jump and jumpConditionally (45_jumps.md R190 to R193): absolute targets from the stack, reported as a delta.
-/

namespace Sys2Proof.Machine

/-- R190. -/
def handleJump (s : State) : Proposal :=
  .ok { pops := 1, pushes := [], write := none, ipDelta := s.top - s.ipInt, halt := false }

/-- R191: the condition is `top`, the target `second`; taken only on the Word 1. -/
def handleJumpConditionally (s : State) : Proposal :=
  .ok { pops := 2, pushes := [], write := none, ipDelta := if isOne s.top then s.second - s.ipInt else 1, halt := false }

/-- `ju` (R190). -/
def execJump (s : State) : Host.Outcome State Fault Refusal := perform (popsOf .jump) handleJump s

/-- `jc` (R191). -/
def execJumpConditionally (s : State) : Host.Outcome State Fault Refusal :=
  perform (popsOf .jumpConditionally) handleJumpConditionally s

end Sys2Proof.Machine
end

