-- ==== Sys2Proof/Machine/MemoryOps.lean ====
section
/-!
DEFINITION. store and load (42_memory_ops.md R140 to R142): one addressing mode, the absolute Memory index in `top`.
-/

namespace Sys2Proof.Machine

/-- R140: the address is `top`, the value is `second`. Validation checks the address (R105, check 2). -/
def handleStore (s : State) : Proposal :=
  .ok { pops := 2, pushes := [], write := some (s.top, s.second), ipDelta := 1, halt := false }

/-- R141: the handler itself checks the address. -/
def handleLoad (s : State) : Proposal :=
  if ¬ inMem s.top then .error .rangeMemoryAddress
  else .ok (Effect.replace 1 [(s.cell s.top.toNat).toInt])

/-- `st` (R140). -/
def execStore (s : State) : Host.Outcome State Fault Refusal := perform (popsOf .store) handleStore s

/-- `lo` (R141). -/
def execLoad (s : State) : Host.Outcome State Fault Refusal := perform (popsOf .load) handleLoad s

end Sys2Proof.Machine
end

