-- ==== Sys2Proof/Machine/Dispatch.lean ====
section
/-!
DEFINITION. The dispatch: one handler per operation and no wildcard arm (40_dispatch.md R102).
-/

namespace Sys2Proof.Machine

def exec (i : Instr) (s : State) : Host.Outcome State Fault Refusal :=
  match i with
  | .halt => Sys2Proof.Machine.execHalt s
  | .noOperation => Sys2Proof.Machine.execNoOperation s
  | .push imm => Sys2Proof.Machine.execPush imm s
  | .pop => Sys2Proof.Machine.execPop s
  | .store => Sys2Proof.Machine.execStore s
  | .load => Sys2Proof.Machine.execLoad s
  | .add => Sys2Proof.Machine.execAdd s
  | .subtract => Sys2Proof.Machine.execSubtract s
  | .multiply => Sys2Proof.Machine.execMultiply s
  | .divide => Sys2Proof.Machine.execDivide s
  | .less => Sys2Proof.Machine.execLess s
  | .greater => Sys2Proof.Machine.execGreater s
  | .same => Sys2Proof.Machine.execSame s
  | .different => Sys2Proof.Machine.execDifferent s
  | .and => Sys2Proof.Machine.execAnd s
  | .or => Sys2Proof.Machine.execOr s
  | .not => Sys2Proof.Machine.execNot s
  | .jump => Sys2Proof.Machine.execJump s
  | .jumpConditionally => Sys2Proof.Machine.execJumpConditionally s

end Sys2Proof.Machine
end

