-- ==== Sys2Proof/Machine/Fetch.lean ====
section
/-!
DEFINITION. Fetch and decode (40_dispatch.md R101, R102), one `execute` given the decoding and how an instruction runs
(R100, R111), and placing a word where the next step fetches it.
-/

namespace Sys2Proof.Machine

/-- Decode the instruction at IP (R101, R102) under given parameters. -/
def fetchIn (p : Parameters) (s : State) : Decoded := decodeAt p.opcodeBase s.fetchedWord s.afterOpcode

/-- Decode the instruction at IP (R101, R102). -/
def fetch (s : State) : Decoded := decode s.fetchedWord s.afterOpcode

/-- The fault a rejected decoding raises: an illegal Word is INVALID_OPCODE (30_encoding.md R64); a `push` whose immediate
would lie outside Memory is RANGE_IMMEDIATE_ADDRESS (41_control_stack.md R122), as its handler says. -/
def rejectFault : DecodeError → FaultKind
  | .invalidOpcode => .invalidOpcode
  | .missingImmediate => .rangeImmediateAddress

/-- How an instruction runs. -/
abbrev Run := Instr → State → Host.Outcome State Fault Refusal

/-- One operation, or the fault of a rejected decoding. -/
def runDecoded (run : Run) (d : Decoded) (s : State) : Host.Outcome State Fault Refusal :=
  match d with
  | .instr i _ => run i s
  | .rejected e => .next (takeFault (rejectFault e) s)

/-- One `execute`, its change of state. READY: run what was decoded. HALTED and FAULTED: no state changes (R100; the spec's
own choice, D6, log entry 5). -/
def cycle (run : Run) (d : Decoded) (s : State) : Host.Outcome State Fault Refusal :=
  match s.status with
  | .ready => runDecoded run d s
  | .halted => .next s
  | .faulted => .next s

/-- Store two Words at IP and, where that is in Memory, at `IP + 1`, and let the machine be READY, so that the next step
fetches them. -/
def placeAtIp (w0 w1 : Word) (s : State) : State :=
  let m := s.mem.write s.ip.val w0
  { s with
    mem := if inMem (s.ipInt + 1) then m.write (s.ip.val + 1) w1 else m
    status := .ready }

end Sys2Proof.Machine
end

