-- ==== Sys2Proof/Machine/Step.lean ====
section
/-!
DEFINITION. One `execute` (40_dispatch.md R100, R111): its change of state. The report it returns is in Machine/Report.lean.
-/

namespace Sys2Proof.Machine

/-- One step: fetch, decode and run, unless the machine has stopped (R100, R111). -/
def step (s : State) : Host.Outcome State Fault Refusal := cycle exec (fetch s) s

/-- `s` with an opcode-table row's bits stored where the next step fetches (Word 0 is bits 7..0, Word 1 bits 15..8, every
bit from `nbits` on 0). It stands for a LOAD_IMAGE of that instruction (log entry 8). At IP 255 only Word 0 fits. -/
def State.withFetchWord (s : State) (nbits w : Nat) : State :=
  placeAtIp (BitVec.ofNat 8 (w % 2 ^ nbits)) (BitVec.ofNat 8 (w % 2 ^ nbits / 256)) s

end Sys2Proof.Machine
end

