-- ==== Sys2Proof/Machine/Assembler.lean ====
section
/-!
DEFINITION. The assembler (30_encoding.md R80 to R94): Parse turns program text into nodes, Generate turns nodes into
Words. Both are pure functions that read no machine state (R90, R94). Program text is a list of characters. Generate emits opcodes,
so a definition whose name ends in `At` takes `OPCODE_BASE` (00_scope.md R9).
-/

namespace Sys2Proof.Machine

/-- Program text, or a part of one. -/
abbrev Text := List Char

/-- The assembler's errors (60_exceptions.md R214). A line's number counts the non-blank lines from 0; the text of a message
is not modelled (91_not_in_source.md N9). -/
inductive AsmError where
  | tooLong                                   -- ASM_TOO_LONG, RangeError
  | syntaxError (line : Nat)                  -- ASM_SYNTAX, SyntaxError
  | invalidCode (line : Nat) (token : Text)   -- ASM_INVALID_CODE, SyntaxError
  | dataRange (node : Nat)                    -- ASM_DATA_RANGE(i), RangeError
  deriving DecidableEq, Repr

/-- The class of an assembler error (R214). -/
def AsmError.errorClass : AsmError → ErrorClass
  | .tooLong | .dataRange _ => .rangeError
  | .syntaxError _ | .invalidCode _ _ => .syntaxError

/-- A node's kind (R80); only a Data node has a value. -/
inductive NodeKind where
  | data (value : Int)
  | operation (name : Operation)
  deriving DecidableEq, Repr

/-- A Parse Node (R80, R86). -/
structure ParseNode where
  /-- The stripped line. -/
  sourceText : Text
  /-- Data with its value, or an operation. -/
  kind : NodeKind
  /-- The stripped text after the first `#`, absent where the line has none. -/
  comment : Option Text
  deriving DecidableEq, Repr

/-- The whitespace that is stripped (R81): space, tab, carriage return, vertical tab, form feed. -/
def isStripped (c : Char) : Bool :=
  c == ' ' || c == '\t' || c == '\r' || c == Char.ofNat 11 || c == Char.ofNat 12

/-- `ws` of R83: what may stand between the token and `#`. -/
def isBlank (c : Char) : Bool := c == ' ' || c == '\t'

/-- A decimal digit. -/
def isDigit (c : Char) : Bool := decide ('0'.toNat ≤ c.toNat) && decide (c.toNat ≤ '9'.toNat)

/-- `tchar` of R83: an ASCII letter, a digit, `_` or `-`. -/
def isTokenChar (c : Char) : Bool :=
  (decide ('A'.toNat ≤ c.toNat) && decide (c.toNat ≤ 'Z'.toNat))
    || (decide ('a'.toNat ≤ c.toNat) && decide (c.toNat ≤ 'z'.toNat)) || isDigit c || c == '_' || c == '-'

/-- Strip leading and trailing whitespace (R81, step 2). -/
def strip (t : Text) : Text := ((t.dropWhile isStripped).reverse.dropWhile isStripped).reverse

/-- Split at every line feed (R81, step 1). -/
def splitLines : Text → List Text
  | [] => [[]]
  | c :: cs =>
    if c == '\n' then [] :: splitLines cs
    else
      match splitLines cs with
      | [] => [[c]]
      | l :: ls => (c :: l) :: ls

/-- The lines of a text (R81): split, stripped, the empty ones discarded. -/
def linesOf (t : Text) : List Text := ((splitLines t).map strip).filter fun l => !l.isEmpty

/-- Match a line against the pattern of R83: the token, and the comment's raw text if there is one. -/
def matchLine (l : Text) : Option (Text × Option Text) :=
  let token := l.takeWhile isTokenChar
  let rest := l.dropWhile isTokenChar
  if token.isEmpty then none
  else if rest.isEmpty then some (token, none)
  else
    match rest.dropWhile isBlank with
    | '#' :: c => some (token, some c)
    | _ => none

/-- The value of decimal digits, most significant first, after those already read. -/
def digitsValue (acc : Nat) : Text → Nat
  | [] => acc
  | c :: cs => digitsValue (10 * acc + (c.toNat - '0'.toNat)) cs

/-- One or more digits, and nothing else (R84). -/
def parseDigits (t : Text) : Option Nat := if !t.isEmpty && t.all isDigit then some (digitsValue 0 t) else none

/-- `-? [0-9]+`, read in base 10 (R84, step 1). -/
def parseInteger (t : Text) : Option Int :=
  match t with
  | '-' :: ds => (parseDigits ds).map fun n => -(n : Int)
  | _ => (parseDigits t).map fun n => (n : Int)

/-- The mnemonic of an operation (R87). -/
def mnemonic : Operation → Text
  | .halt => ['h', 'a']
  | .noOperation => ['n', 'o']
  | .push => ['p', 'u']
  | .pop => ['p', 'o']
  | .store => ['s', 't']
  | .load => ['l', 'o']
  | .add => ['a', 'd']
  | .subtract => ['s', 'u']
  | .multiply => ['m', 'u']
  | .divide => ['d', 'i']
  | .less => ['l', 'e']
  | .greater => ['g', 'r']
  | .same => ['s', 'a']
  | .different => ['d', 'f']
  | .and => ['a', 'n']
  | .or => ['o', 'r']
  | .not => ['n', 't']
  | .jump => ['j', 'u']
  | .jumpConditionally => ['j', 'c']

/-- The canonical enumeration as a list (R63). -/
def allOperations : List Operation :=
  [.halt, .noOperation, .push, .pop, .store, .load, .add, .subtract, .multiply, .divide, .less, .greater, .same, .different,
    .and, .or, .not, .jump, .jumpConditionally]

/-- Look a token up in the mnemonic table, exactly and case-sensitively (R84, step 2). -/
def lookupMnemonic (t : Text) : Option Operation := allOperations.find? fun op => mnemonic op == t

/-- Classify the token of line `n` (R84). -/
def classify (n : Nat) (token : Text) : Except AsmError NodeKind :=
  match parseInteger token with
  | some v => .ok (.data v)
  | none =>
    match lookupMnemonic token with
    | some op => .ok (.operation op)
    | none => .error (.invalidCode n token)

/-- The node of line `n` (R83, R84, R86). -/
def parseLine (n : Nat) (l : Text) : Except AsmError ParseNode :=
  match matchLine l with
  | none => .error (.syntaxError n)
  | some (token, comment) =>
    match classify n token with
    | .error e => .error e
    | .ok k => .ok { sourceText := l, kind := k, comment := comment.map strip }

/-- The nodes of the lines from number `n` on; the first bad line decides the error (R93). -/
def parseLines (n : Nat) : List Text → Except AsmError (List ParseNode)
  | [] => .ok []
  | l :: ls =>
    match parseLine n l with
    | .error e => .error e
    | .ok node =>
      match parseLines (n + 1) ls with
      | .error e => .error e
      | .ok nodes => .ok (node :: nodes)

/-- `Parse(programText)` (R80): the line count is checked before any line is matched (R82). -/
def parse (t : Text) : Except AsmError (List ParseNode) :=
  if (linesOf t).length > Config.memSize then .error .tooLong else parseLines 0 (linesOf t)

/-- The Words of the nodes from index `i` on (R88), under a given `OPCODE_BASE`; the lowest bad index is reported (R93). -/
def generateFrom (base : Int) (i : Nat) : List ParseNode → Except AsmError (List Word)
  | [] => .ok []
  | node :: nodes =>
    match node.kind with
    | .data v =>
      if ¬ inWord v then .error (.dataRange i)
      else
        match generateFrom base (i + 1) nodes with
        | .error e => .error e
        | .ok ws => .ok (Word.ofValue v :: ws)
    | .operation op =>
      match generateFrom base (i + 1) nodes with
      | .error e => .error e
      | .ok ws => .ok (Word.ofValue (op.opcodeAt base) :: ws)

/-- `Generate(parseNodes)` (R88). A Parse Node names one of the 19 operations by type, so Generate's "invalid-opcode error"
cannot occur (R89); `generateHandBuilt` takes nodes that can raise it. -/
def generateAt (base : Int) (nodes : List ParseNode) : Except AsmError (List Word) := generateFrom base 0 nodes

/-- `Generate` at the hardware's `OPCODE_BASE`. -/
def generate (nodes : List ParseNode) : Except AsmError (List Word) := generateAt Config.opcodeBase nodes

/-- The long name of an operation (R63, R87). -/
def operationName : Operation → Text
  | .halt => "halt".toList
  | .noOperation => "noOperation".toList
  | .push => "push".toList
  | .pop => "pop".toList
  | .store => "store".toList
  | .load => "load".toList
  | .add => "add".toList
  | .subtract => "subtract".toList
  | .multiply => "multiply".toList
  | .divide => "divide".toList
  | .less => "less".toList
  | .greater => "greater".toList
  | .same => "same".toList
  | .different => "different".toList
  | .and => "and".toList
  | .or => "or".toList
  | .not => "not".toList
  | .jump => "jump".toList
  | .jumpConditionally => "jumpConditionally".toList

/-- A hand-built node (R89): its operation is any name. Generate reads a node's kind only, so it holds no more. -/
inductive HandNode where
  | data (value : Int)
  | operation (name : Text)
  deriving DecidableEq, Repr

/-- The kind of hand-built node `i` (R89): a name of no operation is ASM_INVALID_CODE. -/
def HandNode.resolve (i : Nat) : HandNode → Except AsmError NodeKind
  | .data v => .ok (.data v)
  | .operation name =>
    match allOperations.find? fun op => operationName op == name with
    | some op => .ok (.operation op)
    | none => .error (.invalidCode i name)

/-- Generate over hand-built nodes, from index `i` on (R88, R89): the lowest bad index is reported. -/
def generateHandBuilt (base : Int) (i : Nat) : List HandNode → Except AsmError (List Word)
  | [] => .ok []
  | node :: nodes =>
    match node.resolve i with
    | .error e => .error e
    | .ok k =>
      match generateFrom base i [{ sourceText := [], kind := k, comment := none }] with
      | .error e => .error e
      | .ok ws =>
        match generateHandBuilt base (i + 1) nodes with
        | .error e => .error e
        | .ok ws' => .ok (ws ++ ws')

/-- `Generate(Parse(text))` (R234, step 2), under a given `OPCODE_BASE`. -/
def assembleAt (base : Int) (t : Text) : Except AsmError (List Word) :=
  match parse t with
  | .error e => .error e
  | .ok nodes => generateAt base nodes

/-- `Generate(Parse(text))` at the hardware's `OPCODE_BASE`. -/
def assemble (t : Text) : Except AsmError (List Word) := assembleAt Config.opcodeBase t

/-- A decimal digit's character. -/
def digitChar (d : Nat) : Char := Char.ofNat ('0'.toNat + d)

/-- A natural number below 1000 in decimal, with no leading zero. -/
def natText (n : Nat) : Text :=
  if n < 10 then [digitChar n]
  else if n < 100 then [digitChar (n / 10), digitChar (n % 10)]
  else [digitChar (n / 100), digitChar (n / 10 % 10), digitChar (n % 10)]

/-- A Word as an integer literal (R84). -/
def wordText (w : Word) : Text := if w.toInt < 0 then '-' :: natText w.toInt.natAbs else natText w.toInt.natAbs

/-- The source lines of an instruction: its mnemonic, and for `push` its immediate on the next line (R85), each line ended
by a line feed. -/
def listingOf (i : Instr) : Text :=
  match i with
  | .push imm => mnemonic .push ++ '\n' :: wordText imm ++ ['\n']
  | .halt | .noOperation | .pop | .store | .load | .add | .subtract | .multiply | .divide | .less | .greater | .same
  | .different | .and | .or | .not | .jump | .jumpConditionally => mnemonic i.operation ++ ['\n']

end Sys2Proof.Machine
end

