-- ==== Sys2Proof/Machine/Report.lean ====
section
/-!
DEFINITION. The step report (40_dispatch.md R107, R108) that `execute` returns beside the state it leaves, and runs of
several steps (70_reset_and_hazards.md R244). A report is not state (10_state.md, opening): it is a function of the state
before the step (R110), as the next state is.

A definition whose name ends in `In` takes the parameters of 00_scope.md R9; beside it stands the one at the hardware's
values. So a run, with its reports, can be taken under every OPCODE_BASE and REM_MODE.
-/

namespace Sys2Proof.Machine

/-- The fields of a success report (R107). -/
structure SuccessReport where
  /-- The operation's name. -/
  name : Operation
  /-- Its opcode. -/
  opcode : Int
  /-- Whether the machine halted. -/
  halt : Bool
  /-- How many stack entries were popped. -/
  pops : Nat
  /-- The values pushed, in order. -/
  pushes : List Int
  /-- The Memory write, if there was one. -/
  write : Option (Int × Int)
  /-- The signed change of IP, 0 on a halt. -/
  ipDelta : Int
  deriving DecidableEq, Repr

/-- What `execute` returns: `success: true` with its fields, or `success: false` with the fault record (R107, R108). -/
inductive Report where
  | success (r : SuccessReport)
  | failure (error : FaultRecord)
  deriving DecidableEq, Repr

/-- The handler of each instruction (R103) under given parameters: only `divide` reads one. -/
def handlerIn (p : Parameters) : Instr → State → Proposal
  | .halt => handleHalt
  | .noOperation => handleNoOperation
  | .push imm => handlePush imm
  | .pop => handlePop
  | .store => handleStore
  | .load => handleLoad
  | .add => handleAdd
  | .subtract => handleSubtract
  | .multiply => handleMultiply
  | .divide => handleDivideIn p.remMode
  | .less => handleLess
  | .greater => handleGreater
  | .same => handleSame
  | .different => handleDifferent
  | .and => handleAnd
  | .or => handleOr
  | .not => handleNot
  | .jump => handleJump
  | .jumpConditionally => handleJumpConditionally

/-- The handler of each instruction. -/
def handlerOf (i : Instr) (s : State) : Proposal := handlerIn Config.parameters i s

/-- What an instruction proposes in a state, after every check (R104, R103, R105), under given parameters. -/
def proposalIn (p : Parameters) (i : Instr) (s : State) : Proposal := checked (popsOf i.operation) (handlerIn p i) s

/-- What an instruction proposes in a state, after every check. -/
def proposalOf (i : Instr) (s : State) : Proposal := proposalIn Config.parameters i s

/-- Running an instruction under given parameters. -/
def execIn (p : Parameters) (i : Instr) (s : State) : Host.Outcome State Fault Refusal :=
  perform (popsOf i.operation) (handlerIn p i) s

/-- One step under given parameters (R111). -/
def stepIn (p : Parameters) (s : State) : Host.Outcome State Fault Refusal := cycle (execIn p) (fetchIn p s) s

/-- The report of an operation's checked effect (R107), with its opcode under a given `OPCODE_BASE`: the `ipDelta` of a halt
is 0. -/
def successReport (base : Int) (op : Operation) (e : Effect) : SuccessReport :=
  { name := op
    opcode := op.opcodeAt base
    halt := e.halt
    pops := e.pops
    pushes := e.pushes
    write := e.write
    ipDelta := if e.halt then 0 else e.ipDelta }

/-- The fault record of a step that fails in `s` (R202). -/
def faultRecord (k : FaultKind) (s : State) : FaultRecord := { kind := k, ip := s.ip, word := s.fetchedWord }

/-- The report of a proposal made in `s`: success with its effect, or the fault (R107, R108). -/
def reportProposal (base : Int) (op : Operation) (proposal : Proposal) (s : State) : Report :=
  match proposal with
  | .ok e => .success (successReport base op e)
  | .error k => .failure (faultRecord k s)

/-- The report of running `i` in `s`, under given parameters. -/
def reportOfIn (p : Parameters) (i : Instr) (s : State) : Report :=
  reportProposal p.opcodeBase i.operation (proposalIn p i s) s

/-- The report of running `i` in `s`. -/
def reportOf (i : Instr) (s : State) : Report := reportOfIn Config.parameters i s

/-- The report HALTED repeats (R100, R111), under a given `OPCODE_BASE`. -/
def haltReport (base : Int) : SuccessReport :=
  { name := .halt, opcode := Operation.halt.opcodeAt base, halt := true, pops := 0, pushes := [], write := none, ipDelta := 0 }

/-- The report of the step that `stepIn` takes (R111). -/
def reportIn (p : Parameters) (s : State) : Report :=
  match s.status with
  | .halted => .success (haltReport p.opcodeBase)
  | .faulted => .failure s.fault
  | .ready =>
    match fetchIn p s with
    | .instr i _ => reportOfIn p i s
    | .rejected e => .failure (faultRecord (rejectFault e) s)

/-- The report of the step that `step` takes (R111). -/
def report (s : State) : Report := reportIn Config.parameters s

/-- The state an outcome of a step from `s` leaves. A step always has a next state (R109); the last arm is never taken. -/
def outcomeState (o : Host.Outcome State Fault Refusal) (s : State) : State :=
  match o with
  | .next t => t
  | .fault r => nomatch r
  | .refused _ => s

/-- The state a step leaves. -/
def stepState (s : State) : State := outcomeState (step s) s

/-- One call of `execute`: the state it leaves and the report it returns. -/
abbrev Execute := State → State × Report

/-- `execute()` under given parameters (R111). -/
def executeIn (p : Parameters) : Execute := fun s => (outcomeState (stepIn p s) s, reportIn p s)

/-- `execute()` (R111). -/
def execute (s : State) : State × Report := (stepState s, report s)

/-- `n` calls one after another: the final state and the reports in order (R244). -/
def repeatExecute (call : Execute) : Nat → State → State × List Report
  | 0, s => (s, [])
  | n + 1, s =>
    let r := repeatExecute call n (call s).1
    (r.1, (call s).2 :: r.2)

/-- `n` calls of `execute` under given parameters. -/
def executeManyIn (p : Parameters) (n : Nat) (s : State) : State × List Report := repeatExecute (executeIn p) n s

/-- `n` calls of `execute`. -/
def executeMany (n : Nat) (s : State) : State × List Report := repeatExecute execute n s

/-- How a run stands (R244): `none` while it can go on, else the way it ended. HALTED is the only final state; FAULTED is
a fault. -/
inductive RunEnd where
  | halted
  | faulted (error : FaultRecord)
  deriving DecidableEq, Repr

/-- The end of a run in state `s`, if it has ended (R244). -/
def runEnd (s : State) : Option RunEnd :=
  match s.status with
  | .ready => none
  | .halted => some .halted
  | .faulted => some (.faulted s.fault)

end Sys2Proof.Machine
end

