-- ==== Sys2Proof/Machine/HostInterface.lean ====
section
/-!
DEFINITION. What the host can do (70_reset_and_hazards.md R230 to R236, R243): RESET, LOAD_IMAGE, `execute`, and the boot
order of R234. Every call happens between steps; a reentrant call has no form here (R53, R243; log entry 9).
`hostCallsIn` and `bootAt` are the same under given parameters (00_scope.md R9).
-/

namespace Sys2Proof.Machine

/-- The errors of LOAD_IMAGE (60_exceptions.md R214), all of the RangeError class. -/
inductive LoadError where
  | empty         -- LOAD_EMPTY
  | tooLong       -- LOAD_TOO_LONG
  | valueRange    -- LOAD_VALUE_RANGE, only from integers
  deriving DecidableEq, Repr

/-- The class of a LOAD_IMAGE error (60_exceptions.md R214). -/
def LoadError.errorClass : LoadError → ErrorClass
  | .empty | .tooLong | .valueRange => .rangeError

/-- `RESET()` (R230): it always succeeds, and every part of the state takes its reset value. -/
def doReset (_ : State) : State := State.reset

/-- `LOAD_IMAGE(words)` (R231): it fails before it writes anything, or it overwrites the first cells of Memory and nothing
else. It is allowed in any STATUS. -/
def loadImage (words : List Word) (s : State) : Except LoadError State :=
  if words.isEmpty then .error .empty
  else if words.length > Config.memSize then .error .tooLong
  else .ok { s with mem := s.mem.writeAll 0 words }

/-- `LOAD_IMAGE` from integers (R231): an element that is not a Word fails the call before anything is written. Which error
is reported where a length and a value are both wrong, the spec does not say (log entry 7). -/
def loadIntegers (values : List Int) (s : State) : Except LoadError State :=
  if values.isEmpty then .error .empty
  else if values.length > Config.memSize then .error .tooLong
  else if ¬ (∀ v ∈ values, inWord v) then .error .valueRange
  else loadImage (values.map Word.ofValue) s

/-- What the host can call between steps (R243). Stopping auto-run is making no further call. -/
inductive HostCall where
  | reset
  | loadImage (words : List Word)
  | execute
  deriving DecidableEq, Repr

/-- What the host gets back (R243). -/
inductive HostReply where
  | done
  | loadFailed (e : LoadError)
  | report (r : Report)
  deriving DecidableEq, Repr

/-- One call of the host, given what `execute` is: the state it leaves and the reply. A failed LOAD_IMAGE leaves the state as
it was (R231). -/
def answerCall (call : Execute) (c : HostCall) (s : State) : State × HostReply :=
  match c with
  | .reset => (doReset s, .done)
  | .loadImage words =>
    match loadImage words s with
    | .ok t => (t, .done)
    | .error e => (s, .loadFailed e)
  | .execute => ((call s).1, .report (call s).2)

/-- Calls one after another: the final state and the replies in order. -/
def answerCalls (call : Execute) : List HostCall → State → State × List HostReply
  | [], s => (s, [])
  | c :: cs, s =>
    let r := answerCalls call cs (answerCall call c s).1
    (r.1, (answerCall call c s).2 :: r.2)

/-- One call of the host. -/
def hostCall (c : HostCall) (s : State) : State × HostReply := answerCall execute c s

/-- Calls of the host one after another. -/
def hostCalls (calls : List HostCall) (s : State) : State × List HostReply := answerCalls execute calls s

/-- Calls of the host one after another, under given parameters. -/
def hostCallsIn (p : Parameters) (calls : List HostCall) (s : State) : State × List HostReply :=
  answerCalls (executeIn p) calls s

/-- `clean_launch(words)` (R234): RESET, then LOAD_IMAGE. -/
def cleanLaunch (words : List Word) : Except LoadError State := loadImage words (doReset State.reset)

/-- Why a boot stopped before its first step (R234). -/
inductive BootError where
  | assembly (e : AsmError)
  | loading (e : LoadError)
  deriving DecidableEq, Repr

/-- Assemble a text and load it, steps 2 and 3 of R234, under a given `OPCODE_BASE`: the state left, and the error if there is
one. A failure leaves the engine untouched (30_encoding.md R94, R234). -/
def assembleAndLoadAt (base : Int) (t : Text) (s : State) : State × Option BootError :=
  match assembleAt base t with
  | .error e => (s, some (.assembly e))
  | .ok words =>
    match loadImage words s with
    | .error e => (s, some (.loading e))
    | .ok u => (u, none)

/-- Assemble a text and load it, at the hardware's `OPCODE_BASE`. -/
def assembleAndLoad (t : Text) (s : State) : State × Option BootError := assembleAndLoadAt Config.opcodeBase t s

/-- Steps 1 to 3 of R234, under a given `OPCODE_BASE`. -/
def bootAt (base : Int) (t : Text) (s : State) : State × Option BootError := assembleAndLoadAt base t (doReset s)

/-- Steps 1 to 3 of R234. -/
def boot (t : Text) (s : State) : State × Option BootError := bootAt Config.opcodeBase t s

end Sys2Proof.Machine
end

