-- ==== Sys2Proof/Safety.lean ====
section
/-!
DEFINITION. The terms that claims use: what a completed and what a failed operation leave, the invariants, and a safe run.
They read the state through `slot` and `cell`, one index at a time, and say nothing of how an effect is computed.
-/

namespace Sys2Proof.Machine

/-- Every Memory cell reads in `t` as in `s`. -/
def SameMemory (s t : State) : Prop := ∀ a, t.cell a = s.cell a

/-- Memory in `t` is that of `s` but for the cell `a`, which holds the integer `v`. -/
def StoredAt (a : Nat) (v : Int) (s t : State) : Prop := (t.cell a).toInt = v ∧ ∀ b, b ≠ a → t.cell b = s.cell b

/-- Everything but Memory, after an operation that popped `pops` entries, pushed the integers `pushed` (the last on top) and
moved IP by `delta`: the new counter, each pushed value, the slots below and above left alone, each vacated slot 0, and
STATUS and FAULT unchanged (40_dispatch.md R106). -/
structure Moved (pops : Nat) (pushed : List Int) (delta : Int) (s t : State) : Prop where
  ip : (t.ip.val : Int) = s.ip.val + delta
  counter : t.sc.val = s.sc.val - pops + pushed.length
  pushedSlots : ∀ j v, pushed[j]? = some v → (t.slot (s.sc.val - pops + j)).toInt = v
  belowSlots : ∀ i, i < s.sc.val - pops → t.slot i = s.slot i
  vacatedSlots : ∀ i, t.sc.val ≤ i → i < s.sc.val → t.slot i = 0
  aboveSlots : ∀ i, s.sc.val ≤ i → t.sc.val ≤ i → t.slot i = s.slot i
  status : t.status = s.status
  fault : t.fault = s.fault

/-- `t` is `s` after a step that failed with `k` (60_exceptions.md R202): STATUS FAULTED, FAULT (k, IP, M[IP]), and nothing
else changed. -/
def Failed (k : FaultKind) (s t : State) : Prop :=
  t = { s with status := .faulted, fault := { kind := k, ip := s.ip, word := s.cell s.ip.val } }

/-- The step report of running `i` in `s` is a success that gives this effect (40_dispatch.md R107). -/
def Reports (i : Instr) (pops : Nat) (pushed : List Int) (write : Option (Int × Int)) (delta : Int) (s : State) : Prop :=
  reportOf i s = .success
    { name := i.operation, opcode := i.operation.opcode, halt := false, pops := pops, pushes := pushed, write := write,
      ipDelta := delta }

/-- Running `i` in `s` completes without touching Memory: it pops, pushes and moves IP as said, and reports so. -/
def Completes (i : Instr) (pops : Nat) (pushed : List Int) (delta : Int) (s : State) : Prop :=
  (∃ t, exec i s = .next t ∧ Moved pops pushed delta s t ∧ SameMemory s t) ∧ Reports i pops pushed none delta s

/-- Running `i` in `s` fails with the fault `k`, changes nothing but STATUS and FAULT, and reports the fault. -/
def FailsAs (i : Instr) (k : FaultKind) (s : State) : Prop :=
  (∃ t, exec i s = .next t ∧ Failed k s t) ∧ reportOf i s = .failure { kind := k, ip := s.ip, word := s.cell s.ip.val }

/-- Where the cause of some fault holds, running `i` in `s` fails with a fault whose cause holds. It says nothing of WHICH
is reported where several hold: that order is the spec's own choice (60_exceptions.md R203, D8). -/
def FailsOn (i : Instr) (cause : FaultKind → Prop) (s : State) : Prop :=
  (∃ k, cause k) → ∃ k, cause k ∧ FailsAs i k s

/-- Every stack slot at or above SC holds 0 (10_state.md R24). -/
def ZeroAboveCounter (s : State) : Prop := ∀ i, s.sc.val ≤ i → s.slot i = 0

/-- Memory and the stack's slots are in canonical form. -/
def Canonical (s : State) : Prop := s.mem.wf = true ∧ s.stack.wf = true

/-- The two together: what every reached state satisfies (R32; the range clauses of R32 hold by the types of State). -/
def Invariant (s : State) : Prop := ZeroAboveCounter s ∧ Canonical s

/-- FAULT and STATUS agree (R27, R28): FAULT is (NONE, 0, 0) unless STATUS is FAULTED, and then it has a kind, and its `ip`
and `word` are those of the instruction IP still points at; and a HALTED machine stands on `halt`. -/
def RecordsStop (s : State) : Prop :=
  match s.status with
  | .ready => s.fault = { kind := .none, ip := 0, word := 0 }
  | .halted => s.fault = { kind := .none, ip := 0, word := 0 } ∧ decodeOperation s.fetchedWord = some .halt
  | .faulted => s.fault.kind ≠ .none ∧ s.fault.ip = s.ip ∧ s.fault.word = s.fetchedWord

/-- The first `n` steps from `s` raise no fault. -/
def SafeFor (n : Nat) (s : State) : Prop := ∀ k, k ≤ n → (executeMany k s).1.status ≠ .faulted

end Sys2Proof.Machine
end

