-- ==== Sys2Proof/Certificates/Slice0/Obligations.lean ====
section
/-!
DEFINITION. The statements for the provers. Each follows the rules of spec/ its entry in OBLIGATIONS.json names. Words of
claims (Completes, FailsOn, Moved, Failed ...) are those of Safety.lean.
-/

open Sys2Proof Sys2Proof.Machine

/-- In every state, halt (opcode 0) completes: STATUS becomes HALTED and IP, SC, every stack slot, every Memory cell
and FAULT are unchanged; the report says halt, with an IP delta of 0. That IP is unchanged is the spec's own choice
(92_eei_decisions.md D5; log entry 4). -/
def Obligations.HaltStopsTheMachine : Prop :=
  encode .halt = [0] ∧
  ∀ s : State, (∃ t, exec .halt s = .next t ∧ t = { s with status := .halted }) ∧ reportOf .halt s = .success
    { name := .halt, opcode := 0, halt := true, pops := 0, pushes := [], write := none, ipDelta := 0 }

/-- noOperation (opcode 1) completes at every IP below 255: IP rises by 1 and nothing else changes. At IP 255 it fails
with RANGE_IP and changes only STATUS and FAULT. -/
def Obligations.NoOperationOnlyAdvances : Prop :=
  encode .noOperation = [1] ∧
  (∀ s : State, s.ip.val < 255 → Completes .noOperation 0 [] 1 s) ∧
  (∀ s : State, s.ip.val = 255 → FailsAs .noOperation .rangeIp s)

/-- push with any immediate Word (opcode 2, then the immediate) completes where IP <= 253 and SC < 256: the immediate
is the new top and IP rises by 2. It fails with RANGE_IMMEDIATE_ADDRESS only at IP 255, with RANGE_STACK_OVERFLOW only
at SC 256, with RANGE_IP only from IP 254 on, and always where one of these holds. The stack overflow check is the
spec's own choice (92_eei_decisions.md D7). -/
def Obligations.PushPushesItsImmediate : Prop :=
  ∀ imm : Word,
    encode (.push imm) = [2, imm] ∧
    (∀ s : State, s.sc.val < 256 → s.ip.val ≤ 253 → Completes (.push imm) 0 [imm.toInt] 2 s) ∧
    (∀ s : State, FailsOn (.push imm) (fun
      | .rangeImmediateAddress => s.ip.val = 255
      | .rangeStackOverflow => s.sc.val = 256
      | .rangeIp => 254 ≤ s.ip.val
      | _ => False) s)

/-- pop (opcode 3) completes where SC >= 1 and IP < 255: SC falls by 1, the vacated slot reads 0, IP rises by 1. It
fails with STACK_UNDERFLOW where SC is 0, and with RANGE_IP at IP 255. -/
def Obligations.PopDiscardsTheTop : Prop :=
  encode .pop = [3] ∧
  (∀ s : State, 1 ≤ s.sc.val → s.ip.val < 255 → Completes .pop 1 [] 1 s) ∧
  (∀ s : State, FailsOn .pop (fun
    | .stackUnderflow => s.sc.val < 1
    | .rangeIp => s.ip.val = 255
    | _ => False) s)

/-- store (opcode 4) completes where SC >= 2, top is a Memory address and IP < 255: M[top] becomes second, every other
cell is unchanged, both entries are popped and their slots zeroed, IP rises by 1. It fails with STACK_UNDERFLOW where
SC < 2, with RANGE_MEMORY_ADDRESS where top is no Memory address, and with RANGE_IP at IP 255. -/
def Obligations.StoreWritesSecondAtTop : Prop :=
  encode .store = [4] ∧
  (∀ s : State, 2 ≤ s.sc.val → inMem s.top → s.ip.val < 255 →
    (∃ t, exec .store s = .next t ∧ Moved 2 [] 1 s t ∧ StoredAt s.top.toNat s.second s t) ∧
      Reports .store 2 [] (some (s.top, s.second)) 1 s) ∧
  (∀ s : State, FailsOn .store (fun
    | .stackUnderflow => s.sc.val < 2
    | .rangeMemoryAddress => ¬ inMem s.top
    | .rangeIp => s.ip.val = 255
    | _ => False) s)

/-- load (opcode 5) completes where SC >= 1, top is a Memory address and IP < 255: top is replaced by M[top], SC is
unchanged, IP rises by 1 and Memory is unchanged. It fails with STACK_UNDERFLOW where SC is 0, with
RANGE_MEMORY_ADDRESS where top is no Memory address, and with RANGE_IP at IP 255. -/
def Obligations.LoadReplacesTopByItsCell : Prop :=
  encode .load = [5] ∧
  (∀ s : State, 1 ≤ s.sc.val → inMem s.top → s.ip.val < 255 →
    Completes .load 1 [(s.cell s.top.toNat).toInt] 1 s) ∧
  (∀ s : State, FailsOn .load (fun
    | .stackUnderflow => s.sc.val < 1
    | .rangeMemoryAddress => ¬ inMem s.top
    | .rangeIp => s.ip.val = 255
    | _ => False) s)

/-- add (opcode 6) completes where SC >= 2, top + second lies in [-128, 127] and IP < 255: both entries are popped,
the exact top + second is pushed, IP rises by 1 and Memory is unchanged. It fails with STACK_UNDERFLOW where SC < 2,
with RANGE_VALUE where top + second is not a Word (it never wraps), and with RANGE_IP at IP 255. -/
def Obligations.AddPushesTheExactSum : Prop :=
  encode .add = [6] ∧
  (∀ s : State, 2 ≤ s.sc.val → inWord (s.top + s.second) → s.ip.val < 255 → Completes .add 2 [s.top + s.second] 1 s) ∧
  (∀ s : State, FailsOn .add (fun
    | .stackUnderflow => s.sc.val < 2
    | .rangeValue => ¬ inWord (s.top + s.second)
    | .rangeIp => s.ip.val = 255
    | _ => False) s)

/-- subtract (opcode 7) completes where SC >= 2, top - second lies in [-128, 127] and IP < 255: both entries are
popped, the exact top - second is pushed, IP rises by 1 and Memory is unchanged. It fails with STACK_UNDERFLOW where
SC < 2, with RANGE_VALUE where top - second is not a Word (it never wraps), and with RANGE_IP at IP 255. -/
def Obligations.SubtractPushesTopMinusSecond : Prop :=
  encode .subtract = [7] ∧
  (∀ s : State, 2 ≤ s.sc.val → inWord (s.top - s.second) → s.ip.val < 255 → Completes .subtract 2 [s.top - s.second] 1 s) ∧
  (∀ s : State, FailsOn .subtract (fun
    | .stackUnderflow => s.sc.val < 2
    | .rangeValue => ¬ inWord (s.top - s.second)
    | .rangeIp => s.ip.val = 255
    | _ => False) s)

/-- multiply (opcode 8) completes where SC >= 2, top * second lies in [-128, 127] and IP < 255: both entries are
popped, the exact top * second is pushed, IP rises by 1 and Memory is unchanged. It fails with STACK_UNDERFLOW where
SC < 2, with RANGE_VALUE where top * second is not a Word (it never wraps), and with RANGE_IP at IP 255. -/
def Obligations.MultiplyPushesTheExactProduct : Prop :=
  encode .multiply = [8] ∧
  (∀ s : State, 2 ≤ s.sc.val → inWord (s.top * s.second) → s.ip.val < 255 → Completes .multiply 2 [s.top * s.second] 1 s) ∧
  (∀ s : State, FailsOn .multiply (fun
    | .stackUnderflow => s.sc.val < 2
    | .rangeValue => ¬ inWord (s.top * s.second)
    | .rangeIp => s.ip.val = 255
    | _ => False) s)

/-- divide (opcode 9), with dividend d = top and divisor e = second, completes where SC >= 2, IP < 255 and not (d =
-128 and e = -1): it pushes d twice where e = 0, else the remainder d - e*floor(d/e) and then the quotient floor(d/e);
SC is unchanged. It fails with STACK_UNDERFLOW where SC < 2, with RANGE_VALUE where d = -128 and e = -1, and with
RANGE_IP at IP 255. The remainder's sign is the spec's own choice (92_eei_decisions.md D4; log entry 3). -/
def Obligations.DividePushesRemainderAndQuotient : Prop :=
  encode .divide = [9] ∧
  (∀ s : State, 2 ≤ s.sc.val → s.second = 0 → s.ip.val < 255 → Completes .divide 2 [s.top, s.top] 1 s) ∧
  (∀ s : State, 2 ≤ s.sc.val → s.second ≠ 0 → ¬ (s.top = -128 ∧ s.second = -1) → s.ip.val < 255 →
    Completes .divide 2 [s.top - s.second * Int.fdiv s.top s.second, Int.fdiv s.top s.second] 1 s) ∧
  (∀ s : State, FailsOn .divide (fun
    | .stackUnderflow => s.sc.val < 2
    | .rangeValue => s.top = -128 ∧ s.second = -1
    | .rangeIp => s.ip.val = 255
    | _ => False) s)

/-- For a dividend d and a divisor e other than 0: under floored, d = e*q + r, r is 0 or has the sign of e, and |r| <
|e|; under truncated, r is 0 or has the sign of d, |r| < |e|, and e divides d - r; q is in both modes the greatest
integer with e*q on d's side (q*|e| <= d*sign(e) < (q+1)*|e|). For e = 0, q = r = d. For Words d and e every remainder
is a Word, and the quotient is one unless d = -128 and e = -1. -/
def Obligations.DivideObeysTheRemainderLaws : Prop :=
  (∀ d e : Int, e ≠ 0 →
    d = e * quotient d e + remainder .floored d e ∧
    (remainder .floored d e = 0 ∨ (remainder .floored d e).sign = e.sign) ∧
    (remainder .floored d e).natAbs < e.natAbs ∧
    (remainder .truncated d e = 0 ∨ (remainder .truncated d e).sign = d.sign) ∧
    (remainder .truncated d e).natAbs < e.natAbs ∧
    e ∣ d - remainder .truncated d e ∧
    quotient d e * e.natAbs ≤ d * e.sign ∧ d * e.sign < (quotient d e + 1) * e.natAbs) ∧
  (∀ d mode, quotient d 0 = d ∧ remainder mode d 0 = d) ∧
  (∀ d e : Int, inWord d → inWord e →
    (∀ mode, inWord (remainder mode d e)) ∧ (inWord (quotient d e) ↔ ¬ (d = -128 ∧ e = -1)))

/-- The floored and the truncated remainder are equal where the divisor is 0, where it divides the dividend, where d
>= 0 and e > 0, and where both are negative; in every other case they differ. -/
def Obligations.RemainderModesAgreeWhereSafe : Prop :=
  ∀ d e : Int, remainder .floored d e = remainder .truncated d e ↔
    (e = 0 ∨ e ∣ d ∨ (0 ≤ d ∧ 0 < e) ∨ (d < 0 ∧ e < 0))

/-- less (opcode 10) completes where SC >= 2 and IP < 255: both entries are popped, 1 is pushed if top < second (as
signed integers) and 0 otherwise, IP rises by 1 and Memory is unchanged. It fails with STACK_UNDERFLOW where SC < 2,
and with RANGE_IP at IP 255. -/
def Obligations.LessComparesTopWithSecond : Prop :=
  encode .less = [10] ∧
  (∀ s : State, 2 ≤ s.sc.val → s.ip.val < 255 → Completes .less 2 [if s.top < s.second then 1 else 0] 1 s) ∧
  (∀ s : State, FailsOn .less (fun
    | .stackUnderflow => s.sc.val < 2
    | .rangeIp => s.ip.val = 255
    | _ => False) s)

/-- greater (opcode 11) completes where SC >= 2 and IP < 255: both entries are popped, 1 is pushed if top > second (as
signed integers) and 0 otherwise, IP rises by 1 and Memory is unchanged. It fails with STACK_UNDERFLOW where SC < 2,
and with RANGE_IP at IP 255. -/
def Obligations.GreaterComparesTopWithSecond : Prop :=
  encode .greater = [11] ∧
  (∀ s : State, 2 ≤ s.sc.val → s.ip.val < 255 → Completes .greater 2 [if s.top > s.second then 1 else 0] 1 s) ∧
  (∀ s : State, FailsOn .greater (fun
    | .stackUnderflow => s.sc.val < 2
    | .rangeIp => s.ip.val = 255
    | _ => False) s)

/-- same (opcode 12) completes where SC >= 2 and IP < 255: both entries are popped, 1 is pushed if top = second (as
signed integers) and 0 otherwise, IP rises by 1 and Memory is unchanged. It fails with STACK_UNDERFLOW where SC < 2,
and with RANGE_IP at IP 255. -/
def Obligations.SameTestsEquality : Prop :=
  encode .same = [12] ∧
  (∀ s : State, 2 ≤ s.sc.val → s.ip.val < 255 → Completes .same 2 [if s.top = s.second then 1 else 0] 1 s) ∧
  (∀ s : State, FailsOn .same (fun
    | .stackUnderflow => s.sc.val < 2
    | .rangeIp => s.ip.val = 255
    | _ => False) s)

/-- different (opcode 13) completes where SC >= 2 and IP < 255: both entries are popped, 1 is pushed if top != second
(as signed integers) and 0 otherwise, IP rises by 1 and Memory is unchanged. It fails with STACK_UNDERFLOW where SC <
2, and with RANGE_IP at IP 255. -/
def Obligations.DifferentTestsInequality : Prop :=
  encode .different = [13] ∧
  (∀ s : State, 2 ≤ s.sc.val → s.ip.val < 255 → Completes .different 2 [if s.top ≠ s.second then 1 else 0] 1 s) ∧
  (∀ s : State, FailsOn .different (fun
    | .stackUnderflow => s.sc.val < 2
    | .rangeIp => s.ip.val = 255
    | _ => False) s)

/-- and (opcode 14) completes where SC >= 2 and IP < 255: both entries are popped, 1 is pushed if top = 1 and second =
1 (as signed integers) and 0 otherwise, IP rises by 1 and Memory is unchanged. It fails with STACK_UNDERFLOW where SC
< 2, and with RANGE_IP at IP 255. -/
def Obligations.AndIsTrueOnlyOnTwoOnes : Prop :=
  encode .and = [14] ∧
  (∀ s : State, 2 ≤ s.sc.val → s.ip.val < 255 → Completes .and 2 [if s.top = 1 ∧ s.second = 1 then 1 else 0] 1 s) ∧
  (∀ s : State, FailsOn .and (fun
    | .stackUnderflow => s.sc.val < 2
    | .rangeIp => s.ip.val = 255
    | _ => False) s)

/-- or (opcode 15) completes where SC >= 2 and IP < 255: both entries are popped, 1 is pushed if top = 1 or second = 1
(as signed integers) and 0 otherwise, IP rises by 1 and Memory is unchanged. It fails with STACK_UNDERFLOW where SC <
2, and with RANGE_IP at IP 255. -/
def Obligations.OrIsTrueOnAOne : Prop :=
  encode .or = [15] ∧
  (∀ s : State, 2 ≤ s.sc.val → s.ip.val < 255 → Completes .or 2 [if s.top = 1 ∨ s.second = 1 then 1 else 0] 1 s) ∧
  (∀ s : State, FailsOn .or (fun
    | .stackUnderflow => s.sc.val < 2
    | .rangeIp => s.ip.val = 255
    | _ => False) s)

/-- not (opcode 16) completes where SC >= 1 and IP < 255: top is replaced by 1 if it is 0 and by 0 otherwise, SC is
unchanged, IP rises by 1 and Memory is unchanged. It fails with STACK_UNDERFLOW where SC is 0, and with RANGE_IP at IP
255. -/
def Obligations.NotIsTrueOnlyOnZero : Prop :=
  encode .not = [16] ∧
  (∀ s : State, 1 ≤ s.sc.val → s.ip.val < 255 → Completes .not 1 [if s.top = 0 then 1 else 0] 1 s) ∧
  (∀ s : State, FailsOn .not (fun
    | .stackUnderflow => s.sc.val < 1
    | .rangeIp => s.ip.val = 255
    | _ => False) s)

/-- jump (opcode 17) completes where SC >= 1 and top is a Memory address, at any IP: IP becomes top (the delta is top
- IP), the entry is popped and its slot zeroed, and Memory is unchanged. It fails with STACK_UNDERFLOW where SC is 0,
and with RANGE_IP where top is no Memory address. -/
def Obligations.JumpGoesToTop : Prop :=
  encode .jump = [17] ∧
  (∀ s : State, 1 ≤ s.sc.val → inMem s.top →
    (∃ t, exec .jump s = .next t ∧ (t.ip.val : Int) = s.top ∧ Moved 1 [] (s.top - s.ip.val) s t ∧ SameMemory s t) ∧
      Reports .jump 1 [] none (s.top - s.ip.val) s) ∧
  (∀ s : State, FailsOn .jump (fun
    | .stackUnderflow => s.sc.val < 1
    | .rangeIp => ¬ inMem s.top
    | _ => False) s)

/-- jumpConditionally (opcode 18) pops two entries. Where SC >= 2, top is 1 and second is a Memory address, IP becomes
second. Where SC >= 2, top is not 1 and IP < 255, IP rises by 1, whatever second is. Memory is unchanged. It fails
with STACK_UNDERFLOW where SC < 2, and with RANGE_IP where it is taken and second is no Memory address, or not taken
at IP 255. -/
def Obligations.JumpConditionallyOnExactlyOne : Prop :=
  encode .jumpConditionally = [18] ∧
  (∀ s : State, 2 ≤ s.sc.val → s.top = 1 → inMem s.second →
    (∃ t, exec .jumpConditionally s = .next t ∧ (t.ip.val : Int) = s.second ∧
      Moved 2 [] (s.second - s.ip.val) s t ∧ SameMemory s t) ∧
      Reports .jumpConditionally 2 [] none (s.second - s.ip.val) s) ∧
  (∀ s : State, 2 ≤ s.sc.val → s.top ≠ 1 → s.ip.val < 255 → Completes .jumpConditionally 2 [] 1 s) ∧
  (∀ s : State, FailsOn .jumpConditionally (fun
    | .stackUnderflow => s.sc.val < 2
    | .rangeIp => (s.top = 1 ∧ ¬ inMem s.second) ∨ (s.top ≠ 1 ∧ s.ip.val = 255)
    | _ => False) s)

/-- In STATUS READY, where the Word at IP and (if IP + 1 is in Memory) the Word after it decode to an instruction, the
step is that instruction's execution in that state; nothing is added around it. -/
def Obligations.StepRunsTheDecodedInstruction : Prop :=
  ∀ (s : State) (i : Instr) (rest : List Word), s.status = .ready →
    decode (s.cell s.ip.val) (if s.ip.val + 1 < 256 then [s.cell (s.ip.val + 1)] else []) = .instr i rest →
    step s = exec i s

/-- In STATUS READY, where the Word at IP is the opcode of none of the 19 operations, the step fails with
INVALID_OPCODE and changes nothing but STATUS and FAULT. Of the 256 Words, 19 are opcodes and 237 are not. -/
def Obligations.IllegalWordFailsTheStep : Prop :=
  (∀ s : State, s.status = .ready → (∀ op : Operation, op.opcode ≠ (s.cell s.ip.val).toInt) →
    ∃ t, step s = .next t ∧ Failed .invalidOpcode s t) ∧
  ((List.range 256).filter fun n => (decodeOperation (BitVec.ofNat 8 n)).isSome).length = 19 ∧
  ((List.range 256).filter fun n => (decodeOperation (BitVec.ofNat 8 n)).isNone).length = 237

/-- In STATUS READY at IP 255, where M[255] is 2 (push), the step fails with RANGE_IMMEDIATE_ADDRESS and changes
nothing but STATUS and FAULT; so does running any push there. That the step answers so where decoding has no immediate
to read is deduced (log entry 15); at SC 256, where RANGE_STACK_OVERFLOW holds as well, which fault is reported is the
spec's own choice (92_eei_decisions.md D8; log entry 6). -/
def Obligations.PushWithoutImmediateFailsTheStep : Prop :=
  ∀ s : State, s.status = .ready → s.ip.val = 255 → s.cell 255 = 2 →
    (∃ t, step s = .next t ∧ Failed .rangeImmediateAddress s t) ∧
    ∀ imm, FailsAs (.push imm) .rangeImmediateAddress s

/-- In STATUS HALTED a step changes no state and reports halt with no effect; in STATUS FAULTED it changes no state
and reports the stored fault record. What such a call returns is the spec's own choice (92_eei_decisions.md D6; log
entry 5), and so is the IP delta of 0 (D5; log entry 4). -/
def Obligations.StoppedMachineKeepsItsState : Prop :=
  ∀ s : State,
    (s.status = .halted → step s = .next s ∧ report s = .success
      { name := .halt, opcode := 0, halt := true, pops := 0, pushes := [], write := none, ipDelta := 0 }) ∧
    (s.status = .faulted → step s = .next s ∧ report s = .failure s.fault)

/-- From every state execute has a next state; its report is a failure carrying FAULT exactly if that state is
FAULTED, and a success otherwise. What a call in HALTED or FAULTED returns is the spec's own choice
(92_eei_decisions.md D6; log entry 5). -/
def Obligations.ExecuteNeverThrows : Prop :=
  ∀ s : State, ∃ t, step s = .next t ∧ execute s = (t, report s) ∧
    (t.status = .faulted → report s = .failure t.fault) ∧
    (t.status ≠ .faulted → ∃ r, report s = .success r)

/-- Where a step from READY leaves FAULTED, the next state is the old one but for STATUS and FAULT; FAULT is a kind
other than NONE, the unchanged IP and the Word at IP; and the report is a failure carrying it. -/
def Obligations.FailedStepIsPrecise : Prop :=
  ∀ s t : State, s.status = .ready → step s = .next t → t.status = .faulted →
    ∃ k, k ≠ .none ∧ Failed k s t ∧ report s = .failure t.fault

/-- For every instruction too few operands is STACK_UNDERFLOW whatever else fails. With its operands there, push at IP
255 is RANGE_IMMEDIATE_ADDRESS even on a full stack, push at IP 254 on a full stack is RANGE_STACK_OVERFLOW, load and
store with a bad address are RANGE_MEMORY_ADDRESS even at IP 255, and an arithmetic result out of range is RANGE_VALUE
even at IP 255. The order is the spec's own choice (92_eei_decisions.md D8; log entry 6). -/
def Obligations.FaultsFollowThePriorityOrder : Prop :=
  ∀ s : State,
    (∀ i : Instr, s.sc.val < popsOf i.operation → FailsAs i .stackUnderflow s) ∧
    (∀ imm, s.ip.val = 255 → FailsAs (.push imm) .rangeImmediateAddress s) ∧
    (∀ imm, s.ip.val ≤ 254 → s.sc.val = 256 → FailsAs (.push imm) .rangeStackOverflow s) ∧
    (1 ≤ s.sc.val → ¬ inMem s.top → FailsAs .load .rangeMemoryAddress s) ∧
    (2 ≤ s.sc.val → ¬ inMem s.top → FailsAs .store .rangeMemoryAddress s) ∧
    (2 ≤ s.sc.val → ¬ inWord (s.top + s.second) → FailsAs .add .rangeValue s) ∧
    (2 ≤ s.sc.val → ¬ inWord (s.top - s.second) → FailsAs .subtract .rangeValue s) ∧
    (2 ≤ s.sc.val → ¬ inWord (s.top * s.second) → FailsAs .multiply .rangeValue s) ∧
    (2 ≤ s.sc.val → s.top = -128 → s.second = -1 → FailsAs .divide .rangeValue s)

/-- A step from READY leaves HALTED exactly if the Word at IP is 0, the opcode of halt; otherwise it leaves READY or
FAULTED. -/
def Obligations.OnlyHaltEntersHalted : Prop :=
  ∀ s t : State, s.status = .ready → step s = .next t → (t.status = .halted ↔ s.cell s.ip.val = 0)

/-- Where a step from READY fetched store (4) and does not fault, M[top] becomes second and every other cell is
unchanged; every other step leaves every Memory cell unchanged. -/
def Obligations.OnlyStoreWritesMemory : Prop :=
  ∀ s t : State, step s = .next t →
    (s.status = .ready ∧ s.cell s.ip.val = 4 ∧ t.status ≠ .faulted → StoredAt s.top.toNat s.second s t) ∧
    (¬ (s.status = .ready ∧ s.cell s.ip.val = 4 ∧ t.status ≠ .faulted) → SameMemory s t)

/-- Whatever a step does, Memory cells 128 to 255 read afterwards as before: a data address is a Word. -/
def Obligations.UpperHalfOfMemoryIsReadOnly : Prop :=
  ∀ s t : State, step s = .next t → ∀ a, 128 ≤ a → t.cell a = s.cell a

/-- Where a step leaves IP at 128 or above, IP is unchanged or rose by 1 or 2; and where IP falls, the step ran jump
or jumpConditionally. -/
def Obligations.UpperHalfIsEnteredSequentially : Prop :=
  ∀ s t : State, step s = .next t →
    (128 ≤ t.ip.val → t.ip.val = s.ip.val ∨ t.ip.val = s.ip.val + 1 ∨ t.ip.val = s.ip.val + 2) ∧
    (t.ip.val < s.ip.val → s.cell s.ip.val = 17 ∨ s.cell s.ip.val = 18)

/-- Let two states agree on IP, SC, the Word at IP, top (where the instruction has an operand), second (where it has
two) and, for load, the cell top names. Then running the instruction in them gives the same report and two next states
that agree on what changed: on IP and SC; and on each slot, each Memory cell, STATUS and FAULT, unless the two runs
both left it as it was. -/
def Obligations.EffectDependsOnlyOnOperands : Prop :=
  ∀ (i : Instr) (s u : State), s.ip = u.ip → s.sc = u.sc → s.fetchedWord = u.fetchedWord →
    (1 ≤ popsOf i.operation → s.top = u.top) → (2 ≤ popsOf i.operation → s.second = u.second) →
    (i = .load → s.cell s.top.toNat = u.cell u.top.toNat) →
    reportOf i s = reportOf i u ∧ ∃ t v, exec i s = .next t ∧ exec i u = .next v ∧ t.ip = v.ip ∧ t.sc = v.sc ∧
      (∀ k, t.slot k = v.slot k ∨ (t.slot k = s.slot k ∧ v.slot k = u.slot k)) ∧
      (∀ a, t.cell a = v.cell a ∨ (t.cell a = s.cell a ∧ v.cell a = u.cell a)) ∧
      (t.status = v.status ∨ (t.status = s.status ∧ v.status = u.status)) ∧
      (t.fault = v.fault ∨ (t.fault = s.fault ∧ v.fault = u.fault))

/-- Where a step from READY reports success, the report's name and opcode are those of the Word at IP, its halt flag
says whether the machine is HALTED or READY afterwards, and the next state is the old one changed by exactly the
reported pops, pushes, write and IP delta (0 on a halt, and within -255 to 255). That a halt leaves IP unchanged and
reports a delta of 0 is the spec's own choice (92_eei_decisions.md D5; log entry 4). -/
def Obligations.ReportAccountsForTheStep : Prop :=
  ∀ (s t : State) (r : SuccessReport), s.status = .ready → step s = .next t → report s = .success r →
    r.name.opcode = (s.cell s.ip.val).toInt ∧ r.opcode = (s.cell s.ip.val).toInt ∧
    (r.halt = true ↔ t.status = .halted) ∧ (r.halt = false → t.status = .ready) ∧ (r.halt = true → r.ipDelta = 0) ∧
    r.pops ≤ s.sc.val ∧ Moved r.pops r.pushes r.ipDelta s { t with status := s.status } ∧
    (r.write = none → SameMemory s t) ∧
    (∀ a v, r.write = some (a, v) → inMem a ∧ StoredAt a.toNat v s t) ∧
    -255 ≤ r.ipDelta ∧ r.ipDelta ≤ 255

/-- The reset state has 0 in every slot at or above SC, and a step from any state that does leads to one that does. -/
def Obligations.StackReadsZeroAboveTheCounter : Prop :=
  ZeroAboveCounter State.reset ∧
  ∀ s t : State, ZeroAboveCounter s → step s = .next t → ZeroAboveCounter t

/-- From any state whose Memory and stack lists are in canonical form (indexes rising and below 256, no entry 0), a
step leads to one whose lists are. The form is the model's own choice of representation (log entry 1). -/
def Obligations.StepKeepsTheCanonicalForm : Prop :=
  ∀ s t : State, Canonical s → step s = .next t → Canonical t

/-- The reset state has 0 above SC, canonical lists, and FAULT (NONE, 0, 0) with STATUS READY. The reset values of
STATUS and FAULT are the spec's own choice (92_eei_decisions.md D6, D9; log entry 11), and the canonical form is the
model's own choice of representation (log entry 1). -/
def Obligations.ResetMeetsTheInvariant : Prop :=
  Invariant State.reset ∧ RecordsStop State.reset

/-- From any state that meets the invariant (0 above SC, canonical lists), every sequence of host calls leads to one
that meets it. That the slots above SC hold 0 is R24, and the canonical form is the model's own choice of
representation (log entry 1). -/
def Obligations.HostCallsKeepTheInvariant : Prop :=
  ∀ (calls : List HostCall) (s : State), Invariant s → Invariant (hostCalls calls s).1

/-- From any state in which they agree, a step leads to one in which they agree: FAULT is (NONE, 0, 0) unless STATUS
is FAULTED; in FAULTED its kind is not NONE and its ip and word are IP and the Word at IP; in HALTED the Word at IP is
halt. STATUS and FAULT are the spec's own choice (92_eei_decisions.md D6, D9; log entry 11), and so is IP staying at
the halt, on which the clause about HALTED rests (D5; log entry 4). -/
def Obligations.FaultRecordAgreesWithStatus : Prop :=
  ∀ s t : State, RecordsStop s → step s = .next t → RecordsStop t

/-- Where a step from READY leaves HALTED or FAULTED, the next step changes nothing and returns the same report. This
is the spec's own choice (92_eei_decisions.md D6; log entry 5), and so is the IP delta of 0 that a halt reports (D5;
log entry 4). -/
def Obligations.StoppingReportRepeats : Prop :=
  ∀ s t : State, s.status = .ready → step s = .next t → t.status ≠ .ready →
    step t = .next t ∧ report t = report s

/-- From a state that is HALTED or FAULTED, a run of any length ends in that state. This is the spec's own choice
(92_eei_decisions.md D6; log entry 5). -/
def Obligations.StoppedRunGoesNoFurther : Prop :=
  ∀ (n : Nat) (s : State), s.status ≠ .ready → Sys2Proof.core.run n s = .next s ∧ (executeMany n s).1 = s

/-- From a state that is HALTED or FAULTED, LOAD_IMAGE and execute leave STATUS and FAULT as they are, and RESET leads
to READY. This is the spec's own choice (92_eei_decisions.md D6). -/
def Obligations.OnlyResetLeavesAStop : Prop :=
  ∀ (c : HostCall) (s : State), s.status ≠ .ready →
    (c ≠ .reset → (hostCall c s).1.status = s.status ∧ (hostCall c s).1.fault = s.fault) ∧
    (c = .reset → (hostCall c s).1.status = .ready)

/-- From any state RESET leads to IP 0, SC 0, every stack slot 0, every Memory cell 0, STATUS READY and FAULT (NONE,
0, 0). The values of STATUS and FAULT are the spec's own choice (92_eei_decisions.md D6, D9). -/
def Obligations.ResetZeroesEverything : Prop :=
  ∀ s : State, ∃ t, hostCall .reset s = (t, .done) ∧ t.ip.val = 0 ∧ t.sc.val = 0 ∧ (∀ i, t.slot i = 0) ∧
    (∀ a, t.cell a = 0) ∧ t.status = .ready ∧ t.fault = { kind := .none, ip := 0, word := 0 }

/-- LOAD_IMAGE fails with LOAD_EMPTY on no Word and with LOAD_TOO_LONG on more than 256; otherwise M[i] becomes the
i-th Word, every cell above the image is unchanged, and so are IP, SC, every slot, STATUS and FAULT. That it is
allowed in any STATUS is the spec's own choice (92_eei_decisions.md D14). -/
def Obligations.LoadImageOverwritesAPrefix : Prop :=
  ∀ (words : List Word) (s : State),
    (words = [] → loadImage words s = .error .empty) ∧
    (256 < words.length → loadImage words s = .error .tooLong) ∧
    (1 ≤ words.length → words.length ≤ 256 → ∃ t, loadImage words s = .ok t ∧
      (∀ i w, words[i]? = some w → t.cell i = w) ∧ (∀ a, words.length ≤ a → t.cell a = s.cell a) ∧
      t.ip = s.ip ∧ t.sc = s.sc ∧ (∀ i, t.slot i = s.slot i) ∧ t.status = s.status ∧ t.fault = s.fault)

/-- An image of 1 to 256 integers is refused with LOAD_VALUE_RANGE if one is not a Word, and is otherwise loaded: cell
i holds the i-th integer, and every cell above the image, IP, SC, every slot, STATUS and FAULT are unchanged. The
check is the spec's own choice (92_eei_decisions.md D14; log entry 7). -/
def Obligations.IntegerImageIsRangeChecked : Prop :=
  ∀ (values : List Int) (s : State), 1 ≤ values.length → values.length ≤ 256 →
    ((∃ v ∈ values, ¬ inWord v) → loadIntegers values s = .error .valueRange) ∧
    ((∀ v ∈ values, inWord v) → ∃ t, loadIntegers values s = .ok t ∧
      (∀ i v, values[i]? = some v → (t.cell i).toInt = v) ∧ (∀ a, values.length ≤ a → t.cell a = s.cell a) ∧
      t.ip = s.ip ∧ t.sc = s.sc ∧ (∀ i, t.slot i = s.slot i) ∧ t.status = s.status ∧ t.fault = s.fault)

/-- Where assembling a text and loading it after RESET reports no error, the text assembles to some Words and the
state is: READY, FAULT (NONE, 0, 0), IP 0, SC 0, every slot 0, the Words from cell 0 on, and 0 above them. It is a new
instance's state loaded with the same Words (92_eei_decisions.md D13, D20). -/
def Obligations.BootReachesTheLaunchState : Prop :=
  ∀ (text : Text) (s u : State), boot text s = (u, none) →
    ∃ words, assemble text = .ok words ∧ cleanLaunch words = .ok u ∧ u.status = .ready ∧
      u.fault = { kind := .none, ip := 0, word := 0 } ∧ u.ip.val = 0 ∧ u.sc.val = 0 ∧ (∀ i, u.slot i = 0) ∧
      ∀ a, u.cell a = (words[a]?).getD 0

/-- Where a step from READY fetches store with top = IP + 1, it completes, the next step fetches the stored Word, and
it runs whatever instruction that Word decodes to. -/
def Obligations.StoredWordIsFetchedNext : Prop :=
  ∀ s : State, s.status = .ready → s.cell s.ip.val = 4 → 2 ≤ s.sc.val → s.top = s.ip.val + 1 →
    ∃ t, step s = .next t ∧ t.fetchedWord.toInt = s.second ∧
      ∀ i rest, decode (Word.ofValue s.second) t.afterOpcode = .instr i rest → step t = exec i t

/-- For every Word w, every sequence after it and every instruction i (push with every immediate): decoding gives i
and the rest exactly if the sequence is the encoding of i followed by that rest. -/
def Obligations.DecodeAndEncodeAgree : Prop :=
  ∀ (w : Word) (after : List Word) (i : Instr) (rest : List Word),
    decode w after = .instr i rest ↔ w :: after = encode i ++ rest

/-- For every list of instructions, reading the concatenation of their encodings from its first Word on, one
instruction after another, gives exactly that list: no instruction swallows or splits the next. -/
def Obligations.ImageSweepInvertsEncoding : Prop :=
  ∀ (program : List Instr) (n : Nat), program.length ≤ n → decodeAll n (program.flatMap encode) = some program

/-- The Words 0, 2 followed by -5, 4, 9, 16 and 18 decode to halt, push -5, store, divide, not and jumpConditionally;
19 and -1 are rejected. The numbering from 0 is the spec's own choice (92_eei_decisions.md D2; log entry 2). -/
def Obligations.OpcodeWordsDecodeAsTheTableSays : Prop :=
  decode 0b00000000#8 [] = .instr .halt [] ∧
  decode 0b00000010#8 [0b11111011#8] = .instr (.push (Word.ofValue (-5))) [] ∧
  decode 0b00000100#8 [] = .instr .store [] ∧
  decode 0b00001001#8 [] = .instr .divide [] ∧
  decode 0b00010000#8 [] = .instr .not [] ∧
  decode 0b00010010#8 [] = .instr .jumpConditionally [] ∧
  decode 0b00010011#8 [] = .rejected .invalidOpcode ∧
  decode 0b11111111#8 [] = .rejected .invalidOpcode

/-- Under OPCODE_BASE 0 and under OPCODE_BASE 1, every instruction's encoding decodes to it, with whatever follows
left over. -/
def Obligations.RoundTripUnderEitherBase : Prop :=
  ∀ base : Int, base = 0 ∨ base = 1 → ∀ (i : Instr) (rest : List Word),
    ∃ w imms, encodeAt base i = w :: imms ∧ decodeAt base w (imms ++ rest) = .instr i rest

/-- Each of the 19 operations has its mnemonic of the table, from halt (ha) to jumpConditionally (jc), there is no
twentieth operation, and a token looks up to an operation exactly if it is that operation's mnemonic. -/
def Obligations.MnemonicTableIsExact : Prop :=
  allOperations.map (fun op => (op, mnemonic op)) =
    [(.halt, "ha".toList), (.noOperation, "no".toList), (.push, "pu".toList), (.pop, "po".toList),
      (.store, "st".toList), (.load, "lo".toList), (.add, "ad".toList), (.subtract, "su".toList),
      (.multiply, "mu".toList), (.divide, "di".toList), (.less, "le".toList), (.greater, "gr".toList),
      (.same, "sa".toList), (.different, "df".toList), (.and, "an".toList), (.or, "or".toList), (.not, "nt".toList),
      (.jump, "ju".toList), (.jumpConditionally, "jc".toList)] ∧
  (∀ op : Operation, op ∈ allOperations) ∧
  ∀ (token : Text) (op : Operation), lookupMnemonic token = some op ↔ token = mnemonic op

/-- Where Generate succeeds there are as many Words as nodes, a Data node's Word is its value (a Word) and an
operation's Word is its opcode. It fails only with ASM_DATA_RANGE(i), where node i is Data out of the Word range and
no lower node is; and it fails whenever such a node exists. -/
def Obligations.GenerateEmitsOneWordPerNode : Prop :=
  ∀ nodes : List ParseNode,
    (∀ words, generate nodes = .ok words → words.length = nodes.length ∧
      ∀ (i : Nat) (node : ParseNode), nodes[i]? = some node → ∃ w : Word, words[i]? = some w ∧
        ((∃ v, node.kind = .data v ∧ inWord v ∧ w.toInt = v) ∨ (∃ op : Operation, node.kind = .operation op ∧ w.toInt = op.opcode))) ∧
    (∀ e, generate nodes = .error e → ∃ (i : Nat) (node : ParseNode) (v : Int), e = .dataRange i ∧ nodes[i]? = some node ∧ node.kind = .data v ∧
      ¬ inWord v ∧ ∀ (j : Nat) (node' : ParseNode) (v' : Int), j < i → nodes[j]? = some node' → node'.kind = .data v' → inWord v')

/-- Parse fails with ASM_TOO_LONG exactly if more than 256 non-blank lines are left. With at most 256 it succeeds
exactly if every line parses; its nodes are then those of the lines, one for each, in order; and it fails with an
error exactly if that is the error of a line every earlier one of which parses. The order of the errors is the spec's
own choice (92_eei_decisions.md D17), and that lines are numbered from 0 is the model's (log entry 20). -/
def Obligations.ParseReportsTheFirstBadLine : Prop :=
  ∀ text : Text,
    (256 < (linesOf text).length ↔ parse text = .error .tooLong) ∧
    ((linesOf text).length ≤ 256 →
      ((∃ nodes, parse text = .ok nodes) ↔
        ∀ (n : Nat) (l : Text), (linesOf text)[n]? = some l → ∃ node, parseLine n l = .ok node) ∧
      (∀ nodes, parse text = .ok nodes ↔ nodes.length = (linesOf text).length ∧
        ∀ (n : Nat) (l : Text), (linesOf text)[n]? = some l → ∃ node, nodes[n]? = some node ∧ parseLine n l = .ok node) ∧
      ∀ e, parse text = .error e ↔ ∃ (n : Nat) (l : Text), (linesOf text)[n]? = some l ∧
        parseLine n l = .error e ∧ ∀ (m : Nat) (l' : Text), m < n → (linesOf text)[m]? = some l' →
          ∃ node, parseLine m l' = .ok node)

/-- For every list of instructions that fits in Memory, writing each as source lines (its mnemonic; for push, its
immediate in decimal on the next line) and assembling the text gives exactly the concatenated encodings: assembler,
opcode map and encoder agree. -/
def Obligations.AssembledListingIsTheEncoding : Prop :=
  ∀ program : List Instr, (program.flatMap encode).length ≤ 256 →
    assemble (program.flatMap listingOf) = .ok (program.flatMap encode)

/-- Where assembling a text and loading it reports an error, the engine's state is unchanged; where a LOAD_IMAGE call
fails, it is unchanged too. -/
def Obligations.FailedAssemblyLeavesTheEngine : Prop :=
  (∀ (text : Text) (s u : State) (e : BootError), assembleAndLoad text s = (u, some e) → u = s) ∧
  (∀ (text : Text) (s : State) (e : AsmError), assemble text = .error e →
    assembleAndLoad text s = (s, some (.assembly e))) ∧
  (∀ (words : List Word) (s u : State) (e : LoadError), hostCall (.loadImage words) s = (u, .loadFailed e) → u = s)

/-- The hardware's parameters are OPCODE_BASE 0 and REM_MODE floored. At them, running an instruction, the step, its
report, runs of several steps, host calls and the boot that take parameters are those of the machine. The two values
are the spec's own choice (92_eei_decisions.md D2, D4; log entries 2 and 3). -/
def Obligations.ReferenceParametersGiveTheMachine : Prop :=
  Config.parameters = { opcodeBase := 0, remMode := .floored } ∧
  (∀ i s, execIn Config.parameters i s = exec i s) ∧ (∀ s, stepIn Config.parameters s = step s) ∧
  (∀ s, reportIn Config.parameters s = report s) ∧ (∀ n s, executeManyIn Config.parameters n s = executeMany n s) ∧
  (∀ calls s, hostCallsIn Config.parameters calls s = hostCalls calls s) ∧
  (∀ text s, bootAt Config.parameters.opcodeBase text s = boot text s)

/-- Under OPCODE_BASE 0 or 1 and either REM_MODE: in STATUS READY, where the Words at IP decode under that base to an
instruction, the Word at IP is the base plus the instruction's position, the step is that instruction's execution, and
a success report carries its name and that Word; where the Word at IP is no operation's base plus position, the step
fails with INVALID_OPCODE; and assembling a list of instructions that fits in Memory gives their encodings under that
base. -/
def Obligations.EitherBaseReachesTheWholeMachine : Prop :=
  ∀ p : Parameters, p.admitted →
    (∀ (s : State) (i : Instr) (rest : List Word), s.status = .ready →
      decodeAt p.opcodeBase (s.cell s.ip.val) (if s.ip.val + 1 < 256 then [s.cell (s.ip.val + 1)] else []) = .instr i rest →
      (s.cell s.ip.val).toInt = p.opcodeBase + i.operation.ordinal ∧ stepIn p s = execIn p i s ∧
      ∀ r, reportIn p s = .success r → r.name = i.operation ∧ r.opcode = (s.cell s.ip.val).toInt) ∧
    (∀ s : State, s.status = .ready → (∀ op : Operation, p.opcodeBase + op.ordinal ≠ (s.cell s.ip.val).toInt) →
      ∃ t, stepIn p s = .next t ∧ Failed .invalidOpcode s t) ∧
    (∀ program : List Instr, (program.flatMap (encodeAt p.opcodeBase)).length ≤ 256 →
      assembleAt p.opcodeBase (program.flatMap listingOf) = .ok (program.flatMap (encodeAt p.opcodeBase)))

/-- Under any parameters: every instruction other than divide runs as at the hardware's; divide with a divisor other
than 0, where it completes, pushes the remainder of REM_MODE (d - e*floor(d/e), or d - e*trunc(d/e)) and then
floor(d/e); with divisor 0 it pushes the dividend twice; and where it fails it fails as at the hardware's parameters.
-/
def Obligations.OnlyDivideFollowsTheRemainderMode : Prop :=
  ∀ p : Parameters,
    (∀ (i : Instr) (s : State), i ≠ .divide → execIn p i s = exec i s) ∧
    (∀ s : State, 2 ≤ s.sc.val → s.second ≠ 0 → ¬ (s.top = -128 ∧ s.second = -1) → s.ip.val < 255 →
      ∃ t, execIn p .divide s = .next t ∧ SameMemory s t ∧ Moved 2 [match p.remMode with
        | .floored => s.top - s.second * Int.fdiv s.top s.second
        | .truncated => s.top - s.second * Int.tdiv s.top s.second, Int.fdiv s.top s.second] 1 s t) ∧
    (∀ s : State, 2 ≤ s.sc.val → s.second = 0 → s.ip.val < 255 →
      ∃ t, execIn p .divide s = .next t ∧ SameMemory s t ∧ Moved 2 [s.top, s.top] 1 s t) ∧
    (∀ s : State, s.sc.val < 2 ∨ (s.top = -128 ∧ s.second = -1) ∨ s.ip.val = 255 →
      execIn p .divide s = exec .divide s)
end

