-- ==== Sys2Proof/Laws/Memory.lean ====
section
/-!
SUPPORT. The laws of the arrays of Words (Memory and the stack's slots): a read after each operation, and that each
operation keeps the canonical form. The read laws need no canonical form.
-/

namespace Sys2Proof.Machine

@[simp] theorem Memory.read_nil (a : Nat) : Memory.read [] a = 0 := rfl

theorem Memory.read_cons (b : Nat) (w : Word) (m : Memory) (a : Nat) :
    Memory.read ((b, w) :: m) a = if b = a then w else Memory.read m a := rfl

theorem Memory.read_clear (m : Memory) (a b : Nat) : (m.clear a).read b = if b = a then 0 else m.read b := by
  induction m with
  | nil => simp [Memory.clear]
  | cons c m ih =>
    obtain ⟨k, w⟩ := c
    rw [Memory.clear] at ih ⊢
    by_cases hk : k = a
    · rw [List.filter_cons_of_neg (by simpa using hk), ih, Memory.read_cons]
      split_ifs <;> first | rfl | omega
    · rw [List.filter_cons_of_pos (by simpa using hk), Memory.read_cons, Memory.read_cons, ih]
      split_ifs <;> first | rfl | omega

/-- An entry placed where its index has no entry is what that index reads. -/
theorem Memory.read_place (m : Memory) (a : Nat) (v : Word) (b : Nat) (h : ∀ c ∈ m, c.1 ≠ a) :
    (m.place a v).read b = if b = a then v else m.read b := by
  induction m with
  | nil => simp only [Memory.place, Memory.read_cons, Memory.read_nil]; split_ifs <;> first | rfl | omega
  | cons c m ih =>
    obtain ⟨k, w⟩ := c
    have hk : k ≠ a := h (k, w) (by simp)
    have ih := ih fun c hc => h c (by simp [hc])
    rw [Memory.place]
    split_ifs with h1 <;> simp only [Memory.read_cons, ih] <;> split_ifs <;> first | rfl | omega

theorem Memory.clear_ne (m : Memory) (a : Nat) : ∀ c ∈ m.clear a, c.1 ≠ a := by
  simp [Memory.clear]

/-- A read after a write: the Word written at its index, every other index left alone. -/
theorem Memory.read_write (m : Memory) (a : Nat) (v : Word) (b : Nat) :
    (m.write a v).read b = if b = a then v else m.read b := by
  rw [Memory.write]
  split_ifs with hv <;> simp [Memory.read_clear, Memory.read_place _ _ _ _ (m.clear_ne a), *]

@[simp] theorem Memory.read_write_same (m : Memory) (a : Nat) (v : Word) : (m.write a v).read a = v := by
  simp [Memory.read_write]

theorem Memory.read_write_other (m : Memory) {a b : Nat} (v : Word) (h : b ≠ a) : (m.write a v).read b = m.read b := by
  simp [Memory.read_write, h]

theorem Memory.read_zeroFill (m : Memory) (a n b : Nat) :
    (m.zeroFill a n).read b = if a ≤ b ∧ b < a + n then 0 else m.read b := by
  induction n generalizing m a with
  | zero => simp only [Memory.zeroFill]; split_ifs <;> first | rfl | omega
  | succ n ih =>
    simp only [Memory.zeroFill, ih, Memory.read_write]
    split_ifs <;> first | rfl | omega

theorem Memory.read_writeAll (m : Memory) (a : Nat) (vs : List Word) (b : Nat) :
    (m.writeAll a vs).read b = if a ≤ b then (vs[b - a]?).getD (m.read b) else m.read b := by
  induction vs generalizing m a with
  | nil => simp [Memory.writeAll]
  | cons v vs ih =>
    rw [Memory.writeAll, ih]
    by_cases h1 : a + 1 ≤ b
    · obtain ⟨k, rfl⟩ : ∃ k, b = a + 1 + k := ⟨b - (a + 1), by omega⟩
      rw [if_pos h1, if_pos (by omega), Memory.read_write_other _ _ (by omega), show a + 1 + k - (a + 1) = k by omega,
        show a + 1 + k - a = k + 1 by omega, List.getElem?_cons_succ]
    · rw [if_neg h1]
      by_cases h2 : b = a
      · subst h2; simp
      · rw [Memory.read_write_other _ _ h2, if_neg (by omega)]

/-! The canonical form. -/

theorem Memory.wfFrom_mono {lo hi : Nat} {m : Memory} (h : lo ≤ hi) (hm : m.wfFrom hi = true) : m.wfFrom lo = true := by
  cases m with
  | nil => rfl
  | cons c m =>
    obtain ⟨k, w⟩ := c
    simp only [Memory.wfFrom, Bool.and_eq_true, decide_eq_true_eq] at hm ⊢
    exact ⟨⟨⟨by omega, hm.1.1.2⟩, hm.1.2⟩, hm.2⟩

theorem Memory.wfFrom_clear {lo : Nat} {m : Memory} (a : Nat) (hm : m.wfFrom lo = true) :
    (m.clear a).wfFrom lo = true := by
  induction m generalizing lo with
  | nil => rfl
  | cons c m ih =>
    obtain ⟨k, w⟩ := c
    simp only [Memory.wfFrom, Bool.and_eq_true, decide_eq_true_eq] at hm
    rw [Memory.clear]
    by_cases hk : k = a
    · rw [List.filter_cons_of_neg (by simpa using hk)]
      exact Memory.wfFrom_mono (by omega) (ih hm.2)
    · rw [List.filter_cons_of_pos (by simpa using hk)]
      simp only [Memory.wfFrom, Bool.and_eq_true, decide_eq_true_eq]
      exact ⟨hm.1, ih hm.2⟩

theorem Memory.wfFrom_place {lo a : Nat} {m : Memory} {v : Word} (hm : m.wfFrom lo = true) (hlo : lo ≤ a) (ha : a < 256)
    (hv : v ≠ 0) (hne : ∀ c ∈ m, c.1 ≠ a) : (m.place a v).wfFrom lo = true := by
  induction m generalizing lo with
  | nil => simp [Memory.place, Memory.wfFrom, hlo, ha]; exact hv
  | cons c m ih =>
    obtain ⟨k, w⟩ := c
    have hk : k ≠ a := hne (k, w) (by simp)
    simp only [Memory.wfFrom, Bool.and_eq_true, decide_eq_true_eq] at hm
    rw [Memory.place]
    split_ifs with h1 <;> simp only [Memory.wfFrom, Bool.and_eq_true, decide_eq_true_eq]
    · exact ⟨⟨⟨hlo, ha⟩, hv⟩, ⟨⟨by omega, hm.1.1.2⟩, hm.1.2⟩, hm.2⟩
    · exact ⟨hm.1, ih hm.2 (by omega) fun c hc => hne c (by simp [hc])⟩

/-- A write inside the array keeps the canonical form. -/
theorem Memory.wf_write {m : Memory} (hm : m.wf = true) {a : Nat} (ha : a < 256) (v : Word) : (m.write a v).wf = true := by
  rw [Memory.write]
  split_ifs with hv
  · exact Memory.wfFrom_clear a hm
  · exact Memory.wfFrom_place (Memory.wfFrom_clear a hm) (Nat.zero_le a) ha hv (m.clear_ne a)

/-- A write of 0 keeps the canonical form, whatever its index. -/
theorem Memory.wf_write_zero {m : Memory} (hm : m.wf = true) (a : Nat) : (m.write a 0).wf = true := by
  rw [Memory.write, if_pos rfl]
  exact Memory.wfFrom_clear a hm

theorem Memory.wf_zeroFill {m : Memory} (hm : m.wf = true) (a n : Nat) : (m.zeroFill a n).wf = true := by
  induction n generalizing m a with
  | zero => exact hm
  | succ n ih => exact ih (Memory.wf_write_zero hm a) (a + 1)

theorem Memory.wf_writeAll {m : Memory} (hm : m.wf = true) {a : Nat} {vs : List Word} (h : a + vs.length ≤ 256) :
    (m.writeAll a vs).wf = true := by
  induction vs generalizing m a with
  | nil => exact hm
  | cons v vs ih =>
    rw [List.length_cons] at h
    exact ih (Memory.wf_write hm (by omega) v) (by omega)

end Sys2Proof.Machine
end

