-- ==== Sys2Proof/Laws/State.lean ====
section
/-!
SUPPORT. One lemma per field of State per update: resetting, taking a fault, committing an effect, placing a word at IP; and
what each host call and each run of calls leaves.
-/

namespace Sys2Proof.Machine

@[simp] theorem reset_ip : State.reset.ip = 0 := rfl
@[simp] theorem reset_sc : State.reset.sc = 0 := rfl
@[simp] theorem reset_stack : State.reset.stack = [] := rfl
@[simp] theorem reset_mem : State.reset.mem = [] := rfl
@[simp] theorem reset_status : State.reset.status = .ready := rfl
@[simp] theorem reset_fault : State.reset.fault = { kind := .none, ip := 0, word := 0 } := rfl
@[simp] theorem reset_slot (i : Nat) : State.reset.slot i = 0 := rfl
@[simp] theorem reset_cell (a : Nat) : State.reset.cell a = 0 := rfl
@[simp] theorem doReset_eq (s : State) : doReset s = State.reset := rfl

@[simp] theorem takeFault_ip (k : FaultKind) (s : State) : (takeFault k s).ip = s.ip := rfl
@[simp] theorem takeFault_sc (k : FaultKind) (s : State) : (takeFault k s).sc = s.sc := rfl
@[simp] theorem takeFault_stack (k : FaultKind) (s : State) : (takeFault k s).stack = s.stack := rfl
@[simp] theorem takeFault_mem (k : FaultKind) (s : State) : (takeFault k s).mem = s.mem := rfl
@[simp] theorem takeFault_status (k : FaultKind) (s : State) : (takeFault k s).status = .faulted := rfl
@[simp] theorem takeFault_fault (k : FaultKind) (s : State) : (takeFault k s).fault = faultRecord k s := rfl
@[simp] theorem takeFault_slot (k : FaultKind) (s : State) (i : Nat) : (takeFault k s).slot i = s.slot i := rfl
@[simp] theorem takeFault_cell (k : FaultKind) (s : State) (a : Nat) : (takeFault k s).cell a = s.cell a := rfl

@[simp] theorem commit_stack (e : Effect) (s : State) : (commit e s).stack = commitStack s.stack s.sc.val e := rfl
@[simp] theorem commit_mem (e : Effect) (s : State) : (commit e s).mem = commitMemory s.mem e := rfl
@[simp] theorem commit_status (e : Effect) (s : State) :
    (commit e s).status = if e.halt then .halted else s.status := rfl
@[simp] theorem commit_fault (e : Effect) (s : State) : (commit e s).fault = s.fault := rfl
@[simp] theorem commit_ip (e : Effect) (s : State) :
    (commit e s).ip = if e.halt then s.ip else Fin.ofNat 256 ((s.ip.val : Int) + e.ipDelta).toNat := rfl
@[simp] theorem commit_sc (e : Effect) (s : State) :
    (commit e s).sc = Fin.ofNat 257 (s.sc.val - e.pops + e.pushes.length) := rfl

@[simp] theorem placeAtIp_ip (w0 w1 : Word) (s : State) : (placeAtIp w0 w1 s).ip = s.ip := by rw [placeAtIp]
@[simp] theorem placeAtIp_sc (w0 w1 : Word) (s : State) : (placeAtIp w0 w1 s).sc = s.sc := by rw [placeAtIp]
@[simp] theorem placeAtIp_stack (w0 w1 : Word) (s : State) : (placeAtIp w0 w1 s).stack = s.stack := by rw [placeAtIp]
@[simp] theorem placeAtIp_status (w0 w1 : Word) (s : State) : (placeAtIp w0 w1 s).status = .ready := rfl
@[simp] theorem placeAtIp_fault (w0 w1 : Word) (s : State) : (placeAtIp w0 w1 s).fault = s.fault := by rw [placeAtIp]

@[simp] theorem hostCall_reset (s : State) : hostCall .reset s = (State.reset, .done) := rfl
@[simp] theorem hostCall_execute (s : State) : hostCall .execute s = (stepState s, .report (report s)) := rfl
theorem hostCall_loadImage (words : List Word) (s : State) :
    hostCall (.loadImage words) s =
      match loadImage words s with
      | .ok t => (t, .done)
      | .error e => (s, .loadFailed e) := rfl
@[simp] theorem hostCalls_nil (s : State) : hostCalls [] s = (s, []) := rfl
theorem hostCalls_cons (c : HostCall) (cs : List HostCall) (s : State) :
    hostCalls (c :: cs) s =
      ((hostCalls cs (hostCall c s).1).1, (hostCall c s).2 :: (hostCalls cs (hostCall c s).1).2) := rfl
@[simp] theorem executeMany_zero (s : State) : executeMany 0 s = (s, []) := rfl
theorem executeMany_succ (n : Nat) (s : State) :
    executeMany (n + 1) s = ((executeMany n (stepState s)).1, report s :: (executeMany n (stepState s)).2) := rfl
theorem assembleAndLoad_eq (t : Text) (s : State) :
    assembleAndLoad t s =
      match assemble t with
      | .error e => (s, some (.assembly e))
      | .ok words =>
        match loadImage words s with
        | .error e => (s, some (.loading e))
        | .ok u => (u, none) := rfl

end Sys2Proof.Machine
end

