-- ==== Sys2Proof/Laws/Ops.lean ====
section
/-!
SUPPORT. What each shared operation can do, said once: validation, the checks before an effect, commit, running an
instruction, and a step. Later proofs cite these and unfold none of them.
-/

namespace Sys2Proof.Machine

/-! Words and the range tests. -/

theorem inWord_iff (v : Int) : inWord v ↔ -128 ≤ v ∧ v ≤ 127 := by
  norm_num [inWord, wordMin, wordMax, Config.wordBits]

theorem inMem_iff (a : Int) : inMem a ↔ 0 ≤ a ∧ a < 256 := by
  norm_num [inMem, Config.memSize, Config.wordBits]

theorem Word.toInt_ofValue {v : Int} (h : inWord v) : (Word.ofValue v).toInt = v := by
  rw [inWord_iff] at h
  rw [Word.ofValue, BitVec.toInt_ofInt, Int.bmod_def]
  split_ifs <;> omega

theorem Word.inWord_toInt (w : Word) : inWord w.toInt := by
  rw [inWord_iff]
  exact ⟨by have := BitVec.le_toInt w; omega, by have := BitVec.toInt_lt (x := w); omega⟩

theorem Word.ofValue_toInt (w : Word) : Word.ofValue w.toInt = w := BitVec.ofInt_toInt

theorem top_inWord (s : State) : inWord s.top := Word.inWord_toInt _

theorem second_inWord (s : State) : inWord s.second := Word.inWord_toInt _

/-! Validation (R105) and the checks (R104, R103). -/

/-- Validation passes an effect unchanged, and exactly when all four checks hold. -/
theorem validate_ok {e e' : Effect} {s : State} :
    validate e s = .ok e' ↔ e' = e ∧ e.pushesInRange ∧ e.writeFault = none ∧ e.stackInRange s ∧ e.ipInRange s := by
  rw [validate]
  by_cases h1 : e.pushesInRange
  · rw [if_neg (not_not.mpr h1)]
    cases e.writeFault with
    | some k => simp
    | none =>
      dsimp only
      by_cases h2 : e.stackInRange s
      · rw [if_neg (not_not.mpr h2)]
        by_cases h3 : e.ipInRange s
        · rw [if_neg (not_not.mpr h3), Except.ok.injEq]
          exact ⟨fun h => ⟨h.symm, h1, rfl, h2, h3⟩, fun h => h.1.symm⟩
        · rw [if_pos h3]
          exact ⟨fun h => (nomatch h), fun h => absurd h.2.2.2.2 h3⟩
      · rw [if_pos h2]
        exact ⟨fun h => (nomatch h), fun h => absurd h.2.2.2.1 h2⟩
  · simp only [h1, not_false_eq_true, if_true, reduceCtorEq, false_and, and_false]

/-- Which check decides the fault that validation answers: the first that fails. -/
theorem validate_error {e : Effect} {s : State} {k : FaultKind} :
    validate e s = .error k ↔
      (k = .rangeValue ∧ ¬ e.pushesInRange) ∨
      (e.pushesInRange ∧ e.writeFault = some k) ∨
      (k = .rangeStackOverflow ∧ e.pushesInRange ∧ e.writeFault = none ∧ ¬ e.stackInRange s) ∨
      (k = .rangeIp ∧ e.pushesInRange ∧ e.writeFault = none ∧ e.stackInRange s ∧ ¬ e.ipInRange s) := by
  rw [validate]
  by_cases h1 : e.pushesInRange
  · rw [if_neg (not_not.mpr h1)]
    cases hw : e.writeFault with
    | some k' => simp only [Except.error.injEq, Option.some.injEq, reduceCtorEq]; tauto
    | none =>
      dsimp only
      by_cases h2 : e.stackInRange s
      · rw [if_neg (not_not.mpr h2)]
        by_cases h3 : e.ipInRange s
        · rw [if_neg (not_not.mpr h3)]
          exact ⟨fun h => (nomatch h), fun h => by tauto⟩
        · rw [if_pos h3, Except.error.injEq]
          exact ⟨fun h => .inr (.inr (.inr ⟨h.symm, h1, rfl, h2, h3⟩)), fun h => by tauto⟩
      · rw [if_pos h2, Except.error.injEq]
        exact ⟨fun h => .inr (.inr (.inl ⟨h.symm, h1, rfl, h2⟩)), fun h => by tauto⟩
  · rw [if_pos h1, Except.error.injEq]
    exact ⟨fun h => .inl ⟨h.symm, h1⟩, fun h => by tauto⟩

/-- The checks let an effect through exactly when the operands are there, the handler proposes it and it is valid. -/
theorem checked_ok {pops : Nat} {h : State → Proposal} {s : State} {e : Effect} :
    checked pops h s = .ok e ↔ pops ≤ s.sc.val ∧ h s = .ok e ∧ validate e s = .ok e := by
  rw [checked]
  split_ifs with hsc
  · constructor
    · rintro ⟨⟩
    · rintro ⟨hle, -⟩; omega
  · cases hh : h s with
    | error k => simp
    | ok e' =>
      simp only [Except.ok.injEq]
      constructor
      · intro hv
        obtain ⟨rfl, -⟩ := validate_ok.mp hv
        exact ⟨by omega, rfl, hv⟩
      · rintro ⟨-, rfl, hv⟩; exact hv

/-- Which check decides the fault: the operand count, then the handler, then validation. -/
theorem checked_error {pops : Nat} {h : State → Proposal} {s : State} {k : FaultKind} :
    checked pops h s = .error k ↔
      (k = .stackUnderflow ∧ s.sc.val < pops) ∨
      (pops ≤ s.sc.val ∧ (h s = .error k ∨ ∃ e, h s = .ok e ∧ validate e s = .error k)) := by
  rw [checked]
  split_ifs with hsc
  · rw [Except.error.injEq]
    exact ⟨fun h => .inl ⟨h.symm, hsc⟩, fun h => h.elim (·.1.symm) fun h => absurd h.1 (by omega)⟩
  · have hle : pops ≤ s.sc.val := by omega
    cases hh : h s <;> simp [hle]

/-- A handler removes exactly the operands that R104 counts for its operation. -/
theorem handler_pops {p : Parameters} {i : Instr} {s : State} {e : Effect} (h : handlerIn p i s = .ok e) : e.pops = popsOf i.operation := by
  cases i <;>
    simp only [handlerIn, handleHalt, handleNoOperation, handlePush, handlePop, handleStore, handleLoad, handleAdd,
      handleSubtract, handleMultiply, handleDivideIn, handleLess, handleGreater, handleSame, handleDifferent,
      handleAnd, handleOr, handleNot, handleJump, handleJumpConditionally, Effect.replace] at h
  all_goals (try split at h)
  all_goals first | (cases h; rfl) | cases h

/-! Running an instruction. -/

/-- The checked effect of an instruction under given parameters: its operands are there, its handler proposes the effect, the
effect is valid. -/
theorem proposalIn_ok {p : Parameters} {i : Instr} {s : State} {e : Effect} :
    proposalIn p i s = .ok e ↔ popsOf i.operation ≤ s.sc.val ∧ handlerIn p i s = .ok e ∧ validate e s = .ok e :=
  checked_ok

/-- Only divide reads a parameter. -/
theorem proposalIn_eq (p : Parameters) {i : Instr} (h : i ≠ .divide) (s : State) : proposalIn p i s = proposalOf i s := by
  cases i <;> first | rfl | exact absurd rfl h

/-- Running an instruction under given parameters concludes its checked effect. -/
theorem execIn_eq (p : Parameters) (i : Instr) (s : State) : execIn p i s = .next (conclude (proposalIn p i s) s) := rfl

/-- At the hardware's parameters the instructions and the step are the machine's. -/
theorem execIn_reference : execIn Config.parameters = exec := by
  funext i s; cases i <;> rfl

theorem stepIn_reference : stepIn Config.parameters = step := by
  funext s; rw [stepIn, execIn_reference]; rfl

theorem executeIn_reference : executeIn Config.parameters = execute := by
  funext s; rw [executeIn, stepIn_reference]; rfl

/-- The checked effect of an instruction: its operands are there, its handler proposes the effect, the effect is valid. -/
theorem proposalOf_ok {i : Instr} {s : State} {e : Effect} :
    proposalOf i s = .ok e ↔ popsOf i.operation ≤ s.sc.val ∧ handlerOf i s = .ok e ∧ validate e s = .ok e :=
  checked_ok

/-- Which check decides an instruction's fault: the operand count, then the handler, then validation. -/
theorem proposalOf_error {i : Instr} {s : State} {k : FaultKind} :
    proposalOf i s = .error k ↔
      (k = .stackUnderflow ∧ s.sc.val < popsOf i.operation) ∨
      (popsOf i.operation ≤ s.sc.val ∧ (handlerOf i s = .error k ∨ ∃ e, handlerOf i s = .ok e ∧ validate e s = .error k)) :=
  checked_error

/-- The operands a checked effect removes are on the stack. -/
theorem proposalOf_pops {i : Instr} {s : State} {e : Effect} (h : proposalOf i s = .ok e) : e.pops ≤ s.sc.val := by
  obtain ⟨hp, hh, -⟩ := proposalOf_ok.mp h
  rw [handler_pops hh]; exact hp

/-- Running an instruction concludes its checked effect: a commit, or a fault taken. -/
theorem exec_eq (i : Instr) (s : State) : exec i s = .next (conclude (proposalOf i s) s) := by
  cases i <;> rfl

theorem exec_next {i : Instr} {s t : State} : exec i s = .next t ↔ t = conclude (proposalOf i s) s := by
  rw [exec_eq, Host.Outcome.next.injEq, eq_comm]

/-- The report of an instruction whose checks pass is that of its effect. -/
theorem reportOf_ok {i : Instr} {s : State} {e : Effect} (h : proposalOf i s = .ok e) :
    reportOf i s = .success (successReport Config.opcodeBase i.operation e) := by
  rw [proposalOf] at h
  rw [reportOf, reportOfIn, h]; rfl

/-- The report of an instruction whose checks answer a fault is that fault. -/
theorem reportOf_error {i : Instr} {s : State} {k : FaultKind} (h : proposalOf i s = .error k) :
    reportOf i s = .failure (faultRecord k s) := by
  rw [proposalOf] at h
  rw [reportOf, reportOfIn, h]; rfl

/-- An instruction whose checks answer a fault takes it. -/
theorem failsAs_of {i : Instr} {s : State} {k : FaultKind} (h : proposalOf i s = .error k) : FailsAs i k s :=
  ⟨⟨takeFault k s, by rw [exec_eq, h]; rfl, rfl⟩, by rw [reportOf_error h]; rfl⟩

/-- A step from READY that decodes an instruction runs it. -/
theorem step_instr {s : State} {i : Instr} {r : List Word} (hr : s.status = .ready) (hf : fetch s = .instr i r) :
    step s = exec i s := by
  simp only [step, cycle, hr, hf, runDecoded]

/-- A step from READY whose decoding is rejected takes the fault of it. -/
theorem step_rejected {s : State} {e : DecodeError} (hr : s.status = .ready) (hf : fetch s = .rejected e) :
    step s = .next (takeFault (rejectFault e) s) := by
  simp only [step, cycle, hr, hf, runDecoded]

/-- What a step from READY can do: take the fault of a rejected decoding, take the fault of a check, or commit. -/
theorem step_ready {s t : State} (hr : s.status = .ready) (h : step s = .next t) :
    (∃ e, fetch s = .rejected e ∧ t = takeFault (rejectFault e) s) ∨
    (∃ i r k, fetch s = .instr i r ∧ proposalOf i s = .error k ∧ t = takeFault k s) ∨
    (∃ i r e, fetch s = .instr i r ∧ proposalOf i s = .ok e ∧ t = commit e s) := by
  cases hf : fetch s with
  | rejected e =>
    rw [step_rejected hr hf, Host.Outcome.next.injEq] at h
    exact .inl ⟨e, rfl, h.symm⟩
  | instr i r =>
    rw [step_instr hr hf, exec_next] at h
    cases hp : proposalOf i s with
    | error k => exact .inr (.inl ⟨i, r, k, rfl, hp, by simpa [hp, conclude] using h⟩)
    | ok e => exact .inr (.inr ⟨i, r, e, rfl, hp, by simpa [hp, conclude] using h⟩)

/-- A step from HALTED or FAULTED changes nothing. -/
theorem step_stopped {s : State} (h : s.status ≠ .ready) : step s = .next s := by
  cases hs : s.status <;> simp_all [step, cycle]

/-- Every step has a next state. -/
theorem step_eq_stepState (s : State) : step s = .next (stepState s) := by
  have : ∃ t, step s = .next t := by
    by_cases h : s.status = .ready
    · cases hf : fetch s with
      | instr i r => exact ⟨_, (step_instr h hf).trans (exec_eq i s)⟩
      | rejected e => exact ⟨_, step_rejected h hf⟩
    · exact ⟨s, step_stopped h⟩
  obtain ⟨t, ht⟩ := this
  simp [stepState, outcomeState, ht]

theorem step_next {s t : State} : step s = .next t ↔ stepState s = t := by
  rw [step_eq_stepState, Host.Outcome.next.injEq]

/-! Commit (R106). -/

/-- The counter after a commit: the operands removed, the pushes added. -/
theorem commit_sc_val {e : Effect} {s : State} (hp : e.pops ≤ s.sc.val) (h : e.stackInRange s) :
    (commit e s).sc.val = s.sc.val - e.pops + e.pushes.length := by
  have : s.sc.val - e.pops + e.pushes.length < 257 := by
    simp only [Effect.stackInRange, Config.stackSize, Config.wordBits] at h; omega
  simp [Nat.mod_eq_of_lt this]

/-- IP after a commit that does not halt: moved by the delta. -/
theorem commit_ip_val {e : Effect} {s : State} (hh : e.halt = false) (h : e.ipInRange s) :
    ((commit e s).ip.val : Int) = s.ip.val + e.ipDelta := by
  simp only [Effect.ipInRange, hh, Bool.false_eq_true, false_or, inMem_iff] at h
  simp only [commit_ip, hh, Bool.false_eq_true, if_false, Fin.val_ofNat]
  omega

/-- Every slot after a commit: below the new bottom as before, then the pushes, then the vacated slots 0, then as before. -/
theorem commit_slot (e : Effect) (s : State) (i : Nat) (hp : e.pops ≤ s.sc.val) :
    (commit e s).slot i =
      if i < s.sc.val - e.pops then s.slot i
      else ((e.pushes.map Word.ofValue)[i - (s.sc.val - e.pops)]?).getD (if i < s.sc.val then 0 else s.slot i) := by
  simp only [State.slot, commit_stack, commitStack, Memory.read_writeAll, Memory.read_zeroFill]
  by_cases h : i < s.sc.val - e.pops
  · rw [if_pos h, if_neg (by omega), if_neg (by omega)]
  · rw [if_neg h, if_pos (by omega)]
    congr 1
    split_ifs <;> first | rfl | omega

/-- Every Memory cell after a commit: the one written, the others as before. -/
theorem commit_cell (e : Effect) (s : State) (b : Nat) :
    (commit e s).cell b =
      match e.write with
      | none => s.cell b
      | some (a, v) => if b = a.toNat then Word.ofValue v else s.cell b := by
  simp only [State.cell, commit_mem, commitMemory]
  cases e.write with
  | none => rfl
  | some w => simp [Memory.read_write]

/-- An effect that does not halt, committed after every check, moves the machine as the claims say. -/
theorem commit_moved {e : Effect} {s : State} (hp : e.pops ≤ s.sc.val) (hh : e.halt = false)
    (hv : validate e s = .ok e) : Moved e.pops e.pushes e.ipDelta s (commit e s) := by
  obtain ⟨-, hpush, -, hst, hip⟩ := validate_ok.mp hv
  have hsc := commit_sc_val hp hst
  refine ⟨commit_ip_val hh hip, hsc, ?_, ?_, ?_, ?_, ?_, rfl⟩
  · intro j v hj
    have hw := hpush v (List.mem_of_getElem? hj)
    rw [commit_slot e s _ hp, if_neg (by omega), Nat.add_sub_cancel_left, List.getElem?_map, hj]
    exact Word.toInt_ofValue hw
  · intro i hi
    rw [commit_slot e s _ hp, if_pos hi]
  · intro i h1 h2
    rw [commit_slot e s _ hp, if_neg (by omega), List.getElem?_eq_none (by simp; omega), if_pos h2]; rfl
  · intro i h1 h2
    rw [commit_slot e s _ hp, if_neg (by omega), List.getElem?_eq_none (by simp; omega), if_neg (by omega)]; rfl
  · simp [hh]

/-- The report of an instruction whose checked effect does not halt. -/
theorem reports_of {i : Instr} {s : State} {e : Effect} (h : proposalOf i s = .ok e) (hh : e.halt = false) :
    Reports i e.pops e.pushes e.write e.ipDelta s := by
  rw [Reports, reportOf_ok h, successReport, hh]; rfl

/-- An instruction whose checked effect neither halts nor writes completes as the effect says. -/
theorem completes_of {i : Instr} {s : State} {e : Effect} (h : proposalOf i s = .ok e) (hh : e.halt = false)
    (hw : e.write = none) : Completes i e.pops e.pushes e.ipDelta s :=
  ⟨⟨commit e s, by rw [exec_eq, h]; rfl, commit_moved (proposalOf_pops h) hh (proposalOf_ok.mp h).2.2,
    fun a => by rw [commit_cell, hw]⟩, hw ▸ reports_of h hh⟩

/-! What is read around the instruction: the Words after the opcode, the report, the loaded image. -/

/-- The Words decoding may read after the opcode: the next cell, if there is one. -/
theorem afterOpcode_eq (s : State) :
    s.afterOpcode = if s.ip.val + 1 < 256 then [s.cell (s.ip.val + 1)] else [] := by
  simp only [State.afterOpcode, inMem_iff, State.ipInt]
  split_ifs <;> first | rfl | omega

/-- The report of a step from READY that fetched an instruction. -/
theorem report_instr {s : State} {i : Instr} {r : List Word} (hr : s.status = .ready) (hf : fetch s = .instr i r) :
    report s = reportOf i s := by
  have hf' : fetchIn Config.parameters s = .instr i r := hf
  simp only [report, reportIn, hr, hf']; rfl

/-- The report of a step from READY whose decoding is rejected. -/
theorem report_rejected {s : State} {e : DecodeError} (hr : s.status = .ready) (hf : fetch s = .rejected e) :
    report s = .failure (faultRecord (rejectFault e) s) := by
  have hf' : fetchIn Config.parameters s = .rejected e := hf
  simp only [report, reportIn, hr, hf']

/-- The report HALTED repeats. -/
theorem report_halted {s : State} (h : s.status = .halted) : report s = .success (haltReport Config.opcodeBase) := by
  simp only [report, reportIn, h]; rfl

/-- The report FAULTED repeats. -/
theorem report_faulted {s : State} (h : s.status = .faulted) : report s = .failure s.fault := by
  simp only [report, reportIn, h]

/-- Only halt halts. -/
theorem handler_halt {p : Parameters} {i : Instr} {s : State} {e : Effect} (h : handlerIn p i s = .ok e) : e.halt = true ↔ i = .halt := by
  cases i <;>
    simp only [handlerIn, handleHalt, handleNoOperation, handlePush, handlePop, handleStore, handleLoad, handleAdd,
      handleSubtract, handleMultiply, handleDivideIn, handleLess, handleGreater, handleSame, handleDifferent,
      handleAnd, handleOr, handleNot, handleJump, handleJumpConditionally, Effect.replace] at h
  all_goals (try split at h)
  all_goals first | (cases h; simp) | cases h

/-- Only store writes Memory: `second` at `top`. -/
theorem handler_write {p : Parameters} {i : Instr} {s : State} {e : Effect} (h : handlerIn p i s = .ok e) :
    e.write = if i = .store then some (s.top, s.second) else none := by
  cases i <;>
    simp only [handlerIn, handleHalt, handleNoOperation, handlePush, handlePop, handleStore, handleLoad, handleAdd,
      handleSubtract, handleMultiply, handleDivideIn, handleLess, handleGreater, handleSame, handleDifferent,
      handleAnd, handleOr, handleNot, handleJump, handleJumpConditionally, Effect.replace] at h
  all_goals (try split at h)
  all_goals first | (cases h; simp) | cases h

/-- A LOAD_IMAGE that succeeds changes Memory alone. -/
theorem loadImage_ok {words : List Word} {s t : State} (h : loadImage words s = .ok t) :
    words ≠ [] ∧ words.length ≤ 256 ∧ t = { s with mem := s.mem.writeAll 0 words } := by
  rw [loadImage] at h
  have hm : Config.memSize = 256 := rfl
  split_ifs at h with h1 h2
  cases h
  exact ⟨by simpa using h1, by omega, rfl⟩

end Sys2Proof.Machine
end

