-- ==== Sys2Proof/Laws/Decoding.lean ====
section
/-!
SUPPORT. The laws of the opcode map: an operation and its position determine one another, and a Word decodes to an operation
exactly if it is that operation's opcode.
-/

namespace Sys2Proof

@[simp] theorem Operation.ofOrdinal_ordinal (op : Operation) : Operation.ofOrdinal op.ordinal = some op := by
  cases op <;> rfl

theorem Operation.ordinal_of {n : Nat} {op : Operation} (h : Operation.ofOrdinal n = some op) : op.ordinal = n := by
  unfold Operation.ofOrdinal at h
  split at h <;> cases h <;> rfl

theorem Operation.ordinal_lt (op : Operation) : op.ordinal < Config.numOps := by cases op <;> decide

theorem Operation.opcode_eq (op : Operation) : op.opcode = op.ordinal := by
  rw [Operation.opcode, Operation.opcodeAt, show Config.opcodeBase = 0 from rfl, Int.zero_add]

/-- A Word decodes to an operation exactly if it is its opcode. -/
theorem decodeOperation_eq_some {w : Word} {op : Operation} : decodeOperation w = some op ↔ w.toInt = op.opcode := by
  have hd : decodeOperation w = if (0 : Int) ≤ w.toInt then Operation.ofOrdinal (w.toInt - 0).toNat else none := rfl
  rw [hd, Operation.opcode_eq]
  constructor
  · intro h
    split_ifs at h with h0
    have := Operation.ordinal_of h
    omega
  · intro h
    rw [if_pos (by omega), show (w.toInt - 0).toNat = op.ordinal by omega, Operation.ofOrdinal_ordinal]

/-- A Word that is no opcode is rejected by name. -/
theorem decode_rejected {w : Word} (rest : List Word) (h : decodeOperation w = none) :
    decode w rest = .rejected .invalidOpcode := by
  simp only [decodeOperation] at h
  simp [decode, decodeAt, h]

/-- What decoding answers performs the operation its Word stands for. -/
theorem decode_operation {w : Word} {rest r : List Word} {i : Instr} (h : decode w rest = .instr i r) :
    decodeOperation w = some i.operation := by
  simp only [decode, decodeAt] at h
  simp only [decodeOperation]
  split at h
  all_goals (try cases h)
  all_goals (try assumption)
  split at h <;> cases h
  assumption

namespace Machine

/-- The Word at IP is the opcode of the instruction fetched there. -/
theorem fetch_opcode {s : State} {i : Instr} {r : List Word} (h : fetch s = .instr i r) :
    (s.cell s.ip.val).toInt = i.operation.opcode :=
  decodeOperation_eq_some.mp (decode_operation h)

end Machine

end Sys2Proof
end

