-- ==== Sys2Proof/Laws/PerInstr.lean ====
section
/-!
SUPPORT. The facts about every instruction as syntax, one lemma a constructor (the family LAWS.json names).
EncodingShape: the encoding has the instruction's length, 1 or 2 Words (30_encoding.md R61, R66), and its first Word is the
opcode (R62).
-/

namespace Sys2Proof.Laws

def EncodingShape.Statement (i : Instr) : Prop :=
  (encode i).length = i.operation.length ∧ 1 ≤ (encode i).length ∧ (encode i).length ≤ 2 ∧
    (encode i).head?.map BitVec.toInt = some i.operation.opcode

theorem EncodingShape.halt : EncodingShape.Statement .halt := ⟨rfl, by decide, by decide, rfl⟩
theorem EncodingShape.noOperation : EncodingShape.Statement .noOperation := ⟨rfl, by decide, by decide, rfl⟩
theorem EncodingShape.push (imm : Word) : EncodingShape.Statement (.push imm) :=
  ⟨rfl, Nat.le_of_ble_eq_true rfl, Nat.le_of_ble_eq_true rfl, rfl⟩
theorem EncodingShape.pop : EncodingShape.Statement .pop := ⟨rfl, by decide, by decide, rfl⟩
theorem EncodingShape.store : EncodingShape.Statement .store := ⟨rfl, by decide, by decide, rfl⟩
theorem EncodingShape.load : EncodingShape.Statement .load := ⟨rfl, by decide, by decide, rfl⟩
theorem EncodingShape.add : EncodingShape.Statement .add := ⟨rfl, by decide, by decide, rfl⟩
theorem EncodingShape.subtract : EncodingShape.Statement .subtract := ⟨rfl, by decide, by decide, rfl⟩
theorem EncodingShape.multiply : EncodingShape.Statement .multiply := ⟨rfl, by decide, by decide, rfl⟩
theorem EncodingShape.divide : EncodingShape.Statement .divide := ⟨rfl, by decide, by decide, rfl⟩
theorem EncodingShape.less : EncodingShape.Statement .less := ⟨rfl, by decide, by decide, rfl⟩
theorem EncodingShape.greater : EncodingShape.Statement .greater := ⟨rfl, by decide, by decide, rfl⟩
theorem EncodingShape.same : EncodingShape.Statement .same := ⟨rfl, by decide, by decide, rfl⟩
theorem EncodingShape.different : EncodingShape.Statement .different := ⟨rfl, by decide, by decide, rfl⟩
theorem EncodingShape.and : EncodingShape.Statement .and := ⟨rfl, by decide, by decide, rfl⟩
theorem EncodingShape.or : EncodingShape.Statement .or := ⟨rfl, by decide, by decide, rfl⟩
theorem EncodingShape.not : EncodingShape.Statement .not := ⟨rfl, by decide, by decide, rfl⟩
theorem EncodingShape.jump : EncodingShape.Statement .jump := ⟨rfl, by decide, by decide, rfl⟩
theorem EncodingShape.jumpConditionally : EncodingShape.Statement .jumpConditionally := ⟨rfl, by decide, by decide, rfl⟩

end Sys2Proof.Laws
end

