-- ==== Sys2Proof/Tests/Slice0.lean ====
section
/-!
SUPPORT. Tests and witnesses. An expected value comes from spec/95_test_vectors.md, whose row each test names, or from the
words of a rule. A theorem test_… runs one step (or one call of the assembler); a theorem witness_<Name> shows states and
operands that meet the hypotheses of each clause of Obligations.<Name>.
-/

namespace Sys2Proof.Tests

open Sys2Proof.Machine

/-- A READY state at `ip`, with the Words `code` from `ip` on, every other cell 0, and the stack listed from the bottom. -/
def sample (ip : Fin 256) (code stack : List Int) : State :=
  { State.reset with
    ip := ip
    sc := Fin.ofNat 257 stack.length
    stack := Memory.writeAll [] 0 (stack.map Word.ofValue)
    mem := Memory.writeAll [] ip.val (code.map Word.ofValue) }

/-- IP, SC, the first `n` stack slots and STATUS. -/
def view (n : Nat) (s : State) : Nat × Nat × List Int × Status :=
  (s.ip.val, s.sc.val, (List.range n).map fun i => (s.slot i).toInt, s.status)

/-- `s` after a step that failed: STATUS and FAULT only. -/
def failedAs (k : FaultKind) (s : State) : State :=
  { s with status := .faulted, fault := { kind := k, ip := s.ip, word := s.cell s.ip.val } }

/-! Decoding: every constructor's Word, bit by bit (30_encoding.md R63). -/

theorem test_decode_control :
    decode 0b00000000#8 [] = .instr .halt [] ∧ decode 0b00000001#8 [] = .instr .noOperation [] ∧
    decode 0b00000010#8 [0b10000000#8, 0b00000001#8] = .instr (.push (Word.ofValue (-128))) [1] ∧
    decode 0b00000011#8 [] = .instr .pop [] := by decide

theorem test_decode_memory :
    decode 0b00000100#8 [] = .instr .store [] ∧ decode 0b00000101#8 [] = .instr .load [] := by decide

theorem test_decode_arithmetic :
    decode 0b00000110#8 [] = .instr .add [] ∧ decode 0b00000111#8 [] = .instr .subtract [] ∧
    decode 0b00001000#8 [] = .instr .multiply [] ∧ decode 0b00001001#8 [] = .instr .divide [] := by decide

theorem test_decode_comparison :
    decode 0b00001010#8 [] = .instr .less [] ∧ decode 0b00001011#8 [] = .instr .greater [] ∧
    decode 0b00001100#8 [] = .instr .same [] ∧ decode 0b00001101#8 [] = .instr .different [] := by decide

theorem test_decode_logic :
    decode 0b00001110#8 [] = .instr .and [] ∧ decode 0b00001111#8 [] = .instr .or [] ∧
    decode 0b00010000#8 [] = .instr .not [] := by decide

theorem test_decode_jumps :
    decode 0b00010001#8 [] = .instr .jump [] ∧ decode 0b00010010#8 [] = .instr .jumpConditionally [] := by decide

/-- 19 is illegal, and so is every negative Word (R64); a `push` needs its immediate. -/
theorem test_decode_rejects :
    decode 0b00010011#8 [0] = .rejected .invalidOpcode ∧ decode 0b10000000#8 [0] = .rejected .invalidOpcode ∧
    decode 0b00000010#8 [] = .rejected .missingImmediate := by decide

theorem test_decodeTableWord :
    decodeTableWord 8 0x02 = some (.push 0) ∧ decodeTableWord 16 0x2A02 = some (.push 42) ∧
    decodeTableWord 8 0x12 = some .jumpConditionally ∧ decodeTableWord 8 0x13 = none := by decide

theorem test_withFetchWord_runs_the_row :
    step (State.reset.withFetchWord 16 0x2A02) = exec (.push 42) (State.reset.withFetchWord 16 0x2A02) := rfl

/-! WellFormed: an ill-formed term for each check. -/

theorem test_wellFormed_placement :
    (Instr.push 0).fitsAt 255 = false ∧ (Instr.push 0).fitsAt 254 = true ∧ Instr.halt.fitsAt 256 = false := by decide

theorem test_wellFormed_image :
    imageWellFormed [] = false ∧ imageWellFormed [2, 128] = false ∧ imageWellFormed [-129] = false ∧
    imageWellFormed [2, 127, -128] = true := by decide

theorem test_wellFormed_image_too_long : imageWellFormed (List.replicate 257 0) = false := by decide +kernel

/-! The sizes that State's types are written for (00_scope.md R5 to R8). -/

theorem test_sizes :
    Config.memSize = 256 ∧ Config.stackSize = 256 ∧ wordMin = -128 ∧ wordMax = 127 ∧
    allOperations.length = Config.numOps := by decide

/-! One step each (95_test_vectors.md, the row named). -/

/-- T41.2 -/
theorem test_halt_at_the_last_cell : view 3 (stepState (sample 255 [0] [1, 2, 3])) = (255, 3, [1, 2, 3], .halted) := by
  decide

/-- T41.3 -/
theorem test_noOperation : view 3 (stepState (sample 10 [1] [4, 5, 6])) = (11, 3, [4, 5, 6], .ready) := by decide

/-- T41.4 -/
theorem test_noOperation_at_the_last_cell :
    stepState (sample 255 [1] []) = failedAs .rangeIp (sample 255 [1] []) := by decide

/-- T41.6 -/
theorem test_push :
    view 6 (stepState (sample 20 [2, -128] [1, 2, 3, 4, 5])) = (22, 6, [1, 2, 3, 4, 5, -128], .ready) := by decide

/-- T41.11, T41.12: the order of faults, with SC 256. -/
theorem test_push_fault_order :
    (stepState { sample 255 [2] [] with sc := 256 }).fault = ⟨.rangeImmediateAddress, 255, 2⟩ ∧
    (stepState { sample 254 [2, 1] [] with sc := 256 }).fault = ⟨.rangeStackOverflow, 254, 2⟩ := by decide

/-- T41.14 -/
theorem test_pop : view 2 (stepState (sample 0 [3] [5, 9])) = (1, 1, [5, 0], .ready) := by decide

/-- T41.17 -/
theorem test_pop_underflow : stepState (sample 255 [3] []) = failedAs .stackUnderflow (sample 255 [3] []) := by decide

/-- T42.2 -/
theorem test_store :
    view 2 (stepState (sample 3 [4] [-5, 0])) = (4, 0, [0, 0], .ready) ∧
    ((stepState (sample 3 [4] [-5, 0])).cell 0).toInt = -5 := by decide

/-- T42.7 -/
theorem test_store_bad_address :
    stepState (sample 255 [4] [1, -1]) = failedAs .rangeMemoryAddress (sample 255 [4] [1, -1]) := by decide

/-- T42.10: it reads its own opcode. -/
theorem test_load : view 1 (stepState (sample 0 [5] [0])) = (1, 1, [5], .ready) := by decide

/-- T42.13 -/
theorem test_load_bad_address :
    stepState (sample 0 [5] [-128]) = failedAs .rangeMemoryAddress (sample 0 [5] [-128]) := by decide

/-- T43.4 -/
theorem test_add : view 2 (stepState (sample 0 [6] [127, -128])) = (1, 1, [-1, 0], .ready) := by decide

/-- T43.8: no wrap, and RANGE_VALUE before RANGE_IP. -/
theorem test_add_out_of_range :
    stepState (sample 255 [6] [1, 127]) = failedAs .rangeValue (sample 255 [6] [1, 127]) := by decide

/-- T43.10 -/
theorem test_subtract : view 2 (stepState (sample 0 [7] [10, 3])) = (1, 1, [-7, 0], .ready) := by decide

/-- T43.13 -/
theorem test_subtract_out_of_range :
    stepState (sample 0 [7] [-128, 0]) = failedAs .rangeValue (sample 0 [7] [-128, 0]) := by decide

/-- T43.17 -/
theorem test_multiply : view 2 (stepState (sample 0 [8] [8, -16])) = (1, 1, [-128, 0], .ready) := by decide

/-- T43.18 -/
theorem test_multiply_out_of_range :
    stepState (sample 0 [8] [-1, -128]) = failedAs .rangeValue (sample 0 [8] [-1, -128]) := by decide

/-- T43.22, T43.23, T43.26, T43.34, the column "floored". -/
theorem test_divide :
    view 2 (stepState (sample 0 [9] [2, -7])) = (1, 2, [1, -4], .ready) ∧
    view 2 (stepState (sample 0 [9] [-2, 7])) = (1, 2, [-1, -4], .ready) ∧
    view 2 (stepState (sample 0 [9] [0, 9])) = (1, 2, [9, 9], .ready) ∧
    view 2 (stepState (sample 0 [9] [-128, 5])) = (1, 2, [-123, -1], .ready) := by decide

/-- T43.22, T43.23, T43.33, T43.34, the column "truncated". -/
theorem test_truncated_remainder :
    remainder .truncated (-7) 2 = -1 ∧ remainder .truncated 7 (-2) = 1 ∧ remainder .truncated (-1) 127 = -1 ∧
    remainder .truncated 5 (-128) = 5 := by decide

/-- T44.4, T44.2 -/
theorem test_less :
    view 2 (stepState (sample 0 [10] [0, -1])) = (1, 1, [1, 0], .ready) ∧
    view 2 (stepState (sample 0 [10] [3, 5])) = (1, 1, [0, 0], .ready) := by decide

/-- T44.7, T44.9 -/
theorem test_greater :
    view 2 (stepState (sample 0 [11] [-128, 127])) = (1, 1, [1, 0], .ready) ∧
    view 2 (stepState (sample 0 [11] [4, 4])) = (1, 1, [0, 0], .ready) := by decide

/-- T44.11, T44.13 -/
theorem test_same :
    view 2 (stepState (sample 0 [12] [4, 4])) = (1, 1, [1, 0], .ready) ∧
    view 2 (stepState (sample 0 [12] [-1, 1])) = (1, 1, [0, 0], .ready) := by decide

/-- T44.14, T44.15 -/
theorem test_different :
    view 2 (stepState (sample 0 [13] [0, 3])) = (1, 1, [1, 0], .ready) ∧
    view 2 (stepState (sample 0 [13] [-128, -128])) = (1, 1, [0, 0], .ready) := by decide

/-- T44.17, T44.18, T44.20 -/
theorem test_and :
    view 2 (stepState (sample 0 [14] [1, 1])) = (1, 1, [1, 0], .ready) ∧
    view 2 (stepState (sample 0 [14] [1, 3])) = (1, 1, [0, 0], .ready) ∧
    view 2 (stepState (sample 0 [14] [-1, 1])) = (1, 1, [0, 0], .ready) := by decide

/-- T44.24, T44.25 -/
theorem test_or :
    view 2 (stepState (sample 0 [15] [2, 0])) = (1, 1, [0, 0], .ready) ∧
    view 2 (stepState (sample 0 [15] [1, 2])) = (1, 1, [1, 0], .ready) := by decide

/-- T44.27, T44.31 -/
theorem test_not :
    view 1 (stepState (sample 0 [16] [0])) = (1, 1, [1], .ready) ∧
    view 1 (stepState (sample 0 [16] [-128])) = (1, 1, [0], .ready) := by decide

/-- T45.4: a jump from the last cell. -/
theorem test_jump : view 1 (stepState (sample 255 [17] [3])) = (3, 0, [0], .ready) := by decide

/-- T45.5 -/
theorem test_jump_bad_target : stepState (sample 0 [17] [-1]) = failedAs .rangeIp (sample 0 [17] [-1]) := by decide

/-- T45.17, T45.10 -/
theorem test_jumpConditionally :
    view 4 (stepState (sample 3 [18] [9, 8, 3, 1])) = (3, 2, [9, 8, 0, 0], .ready) ∧
    view 2 (stepState (sample 22 [18] [5, 2])) = (23, 0, [0, 0], .ready) := by decide

/-- T45.12, T45.13: the target is checked only where the jump is taken. -/
theorem test_jumpConditionally_target_check :
    view 2 (stepState (sample 22 [18] [-1, 0])) = (23, 0, [0, 0], .ready) ∧
    stepState (sample 22 [18] [-1, 1]) = failedAs .rangeIp (sample 22 [18] [-1, 1]) := by decide

/-- T30.4 -/
theorem test_invalid_opcode :
    stepState (sample 255 [-128] []) = failedAs .invalidOpcode (sample 255 [-128] []) := by decide

/-- T42.1 and T45.1, the reports. -/
theorem test_reports :
    report (sample 0 [4] [42, 100]) = .success
      { name := .store, opcode := 4, halt := false, pops := 2, pushes := [], write := some (100, 42), ipDelta := 1 } ∧
    report (sample 4 [17] [0]) = .success
      { name := .jump, opcode := 17, halt := false, pops := 1, pushes := [], write := none, ipDelta := -4 } := by decide

/-- The numeric codes of 10_state.md R27 and 60_exceptions.md R201, and two classes. -/
theorem test_codes :
    [Status.ready, .halted, .faulted].map Status.code = [0, 1, 2] ∧
    [FaultKind.none, .invalidOpcode, .stackUnderflow, .rangeImmediateAddress, .rangeMemoryAddress, .rangeValue,
      .rangeStackOverflow, .rangeIp].map FaultKind.code = [0, 1, 2, 3, 4, 5, 6, 7] ∧
    FaultKind.rangeIp.errorClass = some .rangeError ∧ AsmError.tooLong.errorClass = .rangeError ∧
    runEnd (stepState State.reset) = some .halted := by decide

/-- T70.8: the reset state's first step halts. -/
theorem test_unloaded_machine_halts : view 1 (stepState State.reset) = (0, 0, [0], .halted) := by decide

/-- T70.6: LOAD_IMAGE with no reset keeps IP and the stack. -/
theorem test_load_without_reset :
    ((hostCalls [.reset, .loadImage [2, 5, 0], .execute, .loadImage [1]] State.reset).1.cell 0 = 1) ∧
    view 1 (hostCalls [.reset, .loadImage [2, 5, 0], .execute, .loadImage [1]] State.reset).1 = (2, 1, [5], .ready) := by
  decide

/-! The assembler (T31). -/

/-- T31.2, T31.4, T31.6, T31.8 -/
theorem test_assemble :
    assemble "  pu  \r\n\n42 # answer\n\tha\n".toList = .ok [2, 42, 0] ∧ assemble "ha # c # d".toList = .ok [0] ∧
    assemble "007\n-0".toList = .ok [7, 0] ∧ assemble "pu\nju".toList = .ok [2, 17] := by decide

/-- T31.9, T31.11, T31.14 -/
theorem test_invalid_code :
    assemble "PU".toList = .error (.invalidCode 0 "PU".toList) ∧
    assemble "0x1F".toList = .error (.invalidCode 0 "0x1F".toList) ∧
    assemble "-".toList = .error (.invalidCode 0 "-".toList) := by decide

/-- T31.15, T31.16, T31.18 -/
theorem test_bad_lines :
    assemble "# note".toList = .error (.syntaxError 0) ∧ assemble "pu 42".toList = .error (.syntaxError 0) ∧
    assemble "pu\n4.2".toList = .error (.syntaxError 1) := by decide

/-- T31.7, T31.19, T31.21, T31.23 -/
theorem test_data_range :
    assemble "pu\n-128".toList = .ok [2, Word.ofValue (-128)] ∧ assemble "pu\n128".toList = .error (.dataRange 1) ∧
    assemble "300\n400".toList = .error (.dataRange 0) ∧
    assemble "200\nxx".toList = .error (.invalidCode 1 "xx".toList) := by decide

/-- T31.26 -/
theorem test_too_long : assemble ((List.replicate 257 "no\n".toList).flatten) = .error .tooLong := by decide +kernel

/-- R86: the comment is the stripped text after the first `#`. -/
theorem test_comment :
    parseLine 0 "ha # c # d".toList =
      .ok { sourceText := "ha # c # d".toList, kind := .operation .halt, comment := some "c # d".toList } := by decide

/-- R89: a hand-built node with an unknown name; a mnemonic is no name. -/
theorem test_hand_built_nodes :
    generateHandBuilt 0 0 [.operation "push".toList, .data 42, .operation "jumpConditionally".toList] = .ok [2, 42, 18] ∧
    generateHandBuilt 0 0 [.data 1, .operation "ju".toList] = .error (.invalidCode 1 "ju".toList) ∧
    generateHandBuilt 0 0 [.data 128, .operation "ju".toList] = .error (.dataRange 0) := by decide

/-! Other parameters (00_scope.md R9, 93_implementation_defined.md I5, I6). -/

/-- T43.22, the column "truncated", as a step. -/
theorem test_truncated_step :
    view 2 (outcomeState (stepIn ⟨0, .truncated⟩ (sample 0 [9] [2, -7])) (sample 0 [9] [2, -7])) =
      (1, 2, [-1, -4], .ready) := by decide

/-- With opcodes counted from 1, push is 3 and halt is 1 (R9: `OPCODE_BASE + k`). -/
theorem test_base_one :
    assembleAt 1 "pu\n42\nha".toList = .ok [3, 42, 1] ∧
    view 1 (executeIn ⟨1, .floored⟩ (sample 0 [3, 42, 1] [])).1 = (2, 1, [42], .ready) ∧
    reportIn ⟨1, .floored⟩ (sample 2 [1] []) = .success (haltReport 1) ∧
    (executeIn ⟨1, .floored⟩ (sample 0 [0] [])).1 = failedAs .invalidOpcode (sample 0 [0] []) := by decide

/-! Witnesses: states and operands that meet the hypotheses of each clause. -/

theorem witness_NoOperationOnlyAdvances : (sample 254 [1] []).ip.val < 255 ∧ (sample 255 [1] []).ip.val = 255 := by decide

theorem witness_PushPushesItsImmediate :
    ({ sample 253 [2, 7] [] with sc := 255 }.sc.val < 256 ∧ (sample 253 [2, 7] []).ip.val ≤ 253) ∧
    (sample 255 [2] []).ip.val = 255 ∧ { sample 0 [2, 7] [] with sc := 256 }.sc.val = 256 ∧
    254 ≤ (sample 254 [2, 7] []).ip.val := by decide

theorem witness_PopDiscardsTheTop :
    (1 ≤ (sample 254 [3] [5]).sc.val ∧ (sample 254 [3] [5]).ip.val < 255) ∧ (sample 0 [3] []).sc.val < 1 ∧
    (sample 255 [3] [5]).ip.val = 255 := by decide

theorem witness_StoreWritesSecondAtTop :
    (2 ≤ (sample 254 [4] [7, 127]).sc.val ∧ inMem (sample 254 [4] [7, 127]).top ∧ (sample 254 [4] [7, 127]).ip.val < 255) ∧
    (sample 0 [4] [7]).sc.val < 2 ∧ ¬ inMem (sample 0 [4] [7, -1]).top ∧ (sample 255 [4] [7, 0]).ip.val = 255 := by decide

theorem witness_LoadReplacesTopByItsCell :
    (1 ≤ (sample 254 [5] [0]).sc.val ∧ inMem (sample 254 [5] [0]).top ∧ (sample 254 [5] [0]).ip.val < 255) ∧
    (sample 0 [5] []).sc.val < 1 ∧ ¬ inMem (sample 0 [5] [-1]).top ∧ (sample 255 [5] [0]).ip.val = 255 := by decide

theorem witness_AddPushesTheExactSum :
    (2 ≤ (sample 254 [6] [27, 100]).sc.val ∧ inWord ((sample 254 [6] [27, 100]).top + (sample 254 [6] [27, 100]).second) ∧
      (sample 254 [6] [27, 100]).ip.val < 255) ∧
    (sample 0 [6] [5]).sc.val < 2 ∧ ¬ inWord ((sample 0 [6] [1, 127]).top + (sample 0 [6] [1, 127]).second) ∧
    (sample 255 [6] [1, 2]).ip.val = 255 := by decide

theorem witness_SubtractPushesTopMinusSecond :
    (2 ≤ (sample 254 [7] [127, -1]).sc.val ∧ inWord ((sample 254 [7] [127, -1]).top - (sample 254 [7] [127, -1]).second) ∧
      (sample 254 [7] [127, -1]).ip.val < 255) ∧
    (sample 0 [7] [5]).sc.val < 2 ∧ ¬ inWord ((sample 0 [7] [-128, 0]).top - (sample 0 [7] [-128, 0]).second) ∧
    (sample 255 [7] [1, 2]).ip.val = 255 := by decide

theorem witness_MultiplyPushesTheExactProduct :
    (2 ≤ (sample 254 [8] [8, -16]).sc.val ∧ inWord ((sample 254 [8] [8, -16]).top * (sample 254 [8] [8, -16]).second) ∧
      (sample 254 [8] [8, -16]).ip.val < 255) ∧
    (sample 0 [8] [5]).sc.val < 2 ∧ ¬ inWord ((sample 0 [8] [8, 16]).top * (sample 0 [8] [8, 16]).second) ∧
    (sample 255 [8] [1, 2]).ip.val = 255 := by decide

theorem witness_DividePushesRemainderAndQuotient :
    (2 ≤ (sample 254 [9] [0, 9]).sc.val ∧ (sample 254 [9] [0, 9]).second = 0 ∧ (sample 254 [9] [0, 9]).ip.val < 255) ∧
    (2 ≤ (sample 254 [9] [1, -128]).sc.val ∧ (sample 254 [9] [1, -128]).second ≠ 0 ∧
      ¬ ((sample 254 [9] [1, -128]).top = -128 ∧ (sample 254 [9] [1, -128]).second = -1)) ∧
    (sample 0 [9] [3]).sc.val < 2 ∧ ((sample 0 [9] [-1, -128]).top = -128 ∧ (sample 0 [9] [-1, -128]).second = -1) ∧
    (sample 255 [9] [1, 2]).ip.val = 255 := by decide

theorem witness_DivideObeysTheRemainderLaws :
    (-1 : Int) ≠ 0 ∧ inWord (-128) ∧ inWord (-1) ∧ inWord 127 := by decide

theorem witness_LessComparesTopWithSecond :
    (2 ≤ (sample 254 [10] [1, 1]).sc.val ∧ (sample 254 [10] [1, 1]).ip.val < 255) ∧ (sample 0 [10] [1]).sc.val < 2 ∧
    (sample 255 [10] [1, 1]).ip.val = 255 := by decide

theorem witness_GreaterComparesTopWithSecond :
    (2 ≤ (sample 254 [11] [1, 1]).sc.val ∧ (sample 254 [11] [1, 1]).ip.val < 255) ∧ (sample 0 [11] [1]).sc.val < 2 ∧
    (sample 255 [11] [1, 1]).ip.val = 255 := by decide

theorem witness_SameTestsEquality :
    (2 ≤ (sample 254 [12] [1, 1]).sc.val ∧ (sample 254 [12] [1, 1]).ip.val < 255) ∧ (sample 0 [12] [1]).sc.val < 2 ∧
    (sample 255 [12] [1, 1]).ip.val = 255 := by decide

theorem witness_DifferentTestsInequality :
    (2 ≤ (sample 254 [13] [1, 1]).sc.val ∧ (sample 254 [13] [1, 1]).ip.val < 255) ∧ (sample 0 [13] [1]).sc.val < 2 ∧
    (sample 255 [13] [1, 1]).ip.val = 255 := by decide

theorem witness_AndIsTrueOnlyOnTwoOnes :
    (2 ≤ (sample 254 [14] [1, 1]).sc.val ∧ (sample 254 [14] [1, 1]).ip.val < 255) ∧ (sample 0 [14] [1]).sc.val < 2 ∧
    (sample 255 [14] [1, 1]).ip.val = 255 := by decide

theorem witness_OrIsTrueOnAOne :
    (2 ≤ (sample 254 [15] [1, 1]).sc.val ∧ (sample 254 [15] [1, 1]).ip.val < 255) ∧ (sample 0 [15] [1]).sc.val < 2 ∧
    (sample 255 [15] [1, 1]).ip.val = 255 := by decide

theorem witness_NotIsTrueOnlyOnZero :
    (1 ≤ (sample 254 [16] [0]).sc.val ∧ (sample 254 [16] [0]).ip.val < 255) ∧ (sample 0 [16] []).sc.val < 1 ∧
    (sample 255 [16] [0]).ip.val = 255 := by decide

theorem witness_JumpGoesToTop :
    (1 ≤ (sample 255 [17] [127]).sc.val ∧ inMem (sample 255 [17] [127]).top) ∧ (sample 0 [17] []).sc.val < 1 ∧
    ¬ inMem (sample 0 [17] [-1]).top := by decide

theorem witness_JumpConditionallyOnExactlyOne :
    (2 ≤ (sample 255 [18] [0, 1]).sc.val ∧ (sample 255 [18] [0, 1]).top = 1 ∧ inMem (sample 255 [18] [0, 1]).second) ∧
    (2 ≤ (sample 254 [18] [-1, 2]).sc.val ∧ (sample 254 [18] [-1, 2]).top ≠ 1 ∧ (sample 254 [18] [-1, 2]).ip.val < 255) ∧
    (sample 0 [18] [1]).sc.val < 2 ∧ ((sample 0 [18] [-1, 1]).top = 1 ∧ ¬ inMem (sample 0 [18] [-1, 1]).second) ∧
    ((sample 255 [18] [3, 0]).top ≠ 1 ∧ (sample 255 [18] [3, 0]).ip.val = 255) := by decide

theorem witness_StepRunsTheDecodedInstruction :
    (sample 253 [2, 7] []).status = .ready ∧
    decode ((sample 253 [2, 7] []).cell 253)
      (if (sample 253 [2, 7] []).ip.val + 1 < 256 then [(sample 253 [2, 7] []).cell 254] else []) = .instr (.push 7) [] ∧
    decode ((sample 255 [0] []).cell 255)
      (if (sample 255 [0] []).ip.val + 1 < 256 then [(sample 255 [0] []).cell 256] else []) = .instr .halt [] := by decide

theorem witness_IllegalWordFailsTheStep :
    (sample 0 [19] []).status = .ready ∧ ∀ op : Operation, op.opcode ≠ ((sample 0 [19] []).cell 0).toInt :=
  ⟨rfl, fun op => by cases op <;> decide⟩

theorem witness_PushWithoutImmediateFailsTheStep :
    (sample 255 [2] []).status = .ready ∧ (sample 255 [2] []).ip.val = 255 ∧ (sample 255 [2] []).cell 255 = 2 := by decide

theorem witness_StoppedMachineKeepsItsState :
    (stepState State.reset).status = .halted ∧ (stepState (sample 0 [3] [])).status = .faulted := by decide

theorem witness_FailedStepIsPrecise :
    (sample 0 [3] []).status = .ready ∧ (stepState (sample 0 [3] [])).status = .faulted ∧
    step (sample 0 [3] []) = .next (stepState (sample 0 [3] [])) := ⟨rfl, by decide, rfl⟩

theorem witness_FaultsFollowThePriorityOrder :
    (sample 255 [6] [1]).sc.val < popsOf .add ∧ (sample 255 [2] []).ip.val = 255 ∧
    ((sample 254 [2, 1] []).ip.val ≤ 254 ∧ { sample 254 [2, 1] [] with sc := 256 }.sc.val = 256) ∧
    (1 ≤ (sample 255 [5] [-1]).sc.val ∧ ¬ inMem (sample 255 [5] [-1]).top) ∧
    (2 ≤ (sample 255 [4] [1, -1]).sc.val ∧ ¬ inMem (sample 255 [4] [1, -1]).top) ∧
    ¬ inWord ((sample 255 [6] [1, 127]).top + (sample 255 [6] [1, 127]).second) ∧
    ¬ inWord ((sample 255 [7] [1, -128]).top - (sample 255 [7] [1, -128]).second) ∧
    ¬ inWord ((sample 255 [8] [8, 16]).top * (sample 255 [8] [8, 16]).second) ∧
    ((sample 255 [9] [-1, -128]).top = -128 ∧ (sample 255 [9] [-1, -128]).second = -1) := by decide

theorem witness_OnlyHaltEntersHalted :
    (State.reset.status = .ready ∧ (stepState State.reset).status = .halted) ∧
    (sample 0 [1] []).status = .ready ∧ (stepState (sample 0 [1] [])).status = .ready := by decide

theorem witness_OnlyStoreWritesMemory :
    ((sample 3 [4] [-5, 0]).status = .ready ∧ (sample 3 [4] [-5, 0]).cell 3 = 4 ∧
      (stepState (sample 3 [4] [-5, 0])).status ≠ .faulted) ∧
    (stepState (sample 255 [4] [-5, 0])).status = .faulted ∧ (sample 0 [1] []).cell 0 ≠ 4 := by decide

theorem witness_UpperHalfIsEnteredSequentially :
    128 ≤ (stepState (sample 127 [1] [])).ip.val ∧
    (stepState (sample 255 [17] [3])).ip.val < (sample 255 [17] [3]).ip.val := by decide

theorem witness_EffectDependsOnlyOnOperands :
    (sample 0 [6] [9, 1, 2]).top = (sample 0 [6] [8, 1, 2]).top ∧
    (sample 0 [6] [9, 1, 2]).second = (sample 0 [6] [8, 1, 2]).second ∧
    (sample 0 [6] [9, 1, 2]).fetchedWord = (sample 0 [6] [8, 1, 2]).fetchedWord ∧
    sample 0 [6] [9, 1, 2] ≠ sample 0 [6] [8, 1, 2] := by decide

theorem witness_ReportAccountsForTheStep :
    (sample 0 [4] [42, 100]).status = .ready ∧
    report (sample 0 [4] [42, 100]) = .success
      { name := .store, opcode := 4, halt := false, pops := 2, pushes := [], write := some (100, 42), ipDelta := 1 } ∧
    report State.reset = .success (haltReport 0) := by decide

theorem witness_StackReadsZeroAboveTheCounter : ZeroAboveCounter (sample 0 [3] [5, 9]) ∧
    (sample 0 [3] [5, 9]).stack.length = 2 := by
  refine ⟨fun i hi => ?_, by decide⟩
  have h : (2 : Nat) ≤ i := hi
  have hs : (sample 0 [3] [5, 9]).stack = [(0, 5), (1, 9)] := by decide
  rw [State.slot, hs, Memory.read, if_neg (by omega), Memory.read, if_neg (by omega), Memory.read]

theorem witness_StepKeepsTheCanonicalForm : Canonical (sample 0 [3] [5, 9]) := ⟨by decide, by decide⟩

theorem witness_HostCallsKeepTheInvariant : Invariant (sample 0 [3] [5, 9]) :=
  ⟨witness_StackReadsZeroAboveTheCounter.1, witness_StepKeepsTheCanonicalForm⟩

theorem witness_FaultRecordAgreesWithStatus :
    RecordsStop State.reset ∧ RecordsStop (stepState State.reset) ∧ RecordsStop (stepState (sample 7 [3] [])) :=
  ⟨rfl, ⟨rfl, rfl⟩, ⟨by decide, rfl, rfl⟩⟩

theorem witness_StoppingReportRepeats :
    (sample 7 [3] []).status = .ready ∧ (stepState (sample 7 [3] [])).status ≠ .ready ∧
    (stepState State.reset).status ≠ .ready := by decide

theorem witness_OnlyResetLeavesAStop :
    (stepState State.reset).status ≠ .ready ∧ HostCall.loadImage [1] ≠ .reset ∧ HostCall.execute ≠ .reset := by decide

theorem witness_LoadImageOverwritesAPrefix :
    1 ≤ ([2, 5, 0] : List Word).length ∧ ([2, 5, 0] : List Word).length ≤ 256 ∧
    256 < (List.replicate 257 (0 : Word)).length :=
  ⟨by decide, by decide, by rw [List.length_replicate]; decide⟩

theorem witness_IntegerImageIsRangeChecked :
    (∃ v ∈ [2, (128 : Int)], ¬ inWord v) ∧ (∀ v ∈ [2, (127 : Int)], inWord v) := by decide

theorem witness_BootReachesTheLaunchState :
    boot "pu\n42\nha".toList (stepState State.reset) =
      ({ State.reset with mem := [(0, 2), (1, 42)] }, none) := by decide

theorem witness_StoredWordIsFetchedNext :
    (sample 5 [4] [1, 6]).status = .ready ∧ (sample 5 [4] [1, 6]).cell 5 = 4 ∧ 2 ≤ (sample 5 [4] [1, 6]).sc.val ∧
    (sample 5 [4] [1, 6]).top = (sample 5 [4] [1, 6]).ip.val + 1 := by decide

theorem witness_UpperHalfOfMemoryIsReadOnly :
    step (sample 3 [4] [-5, 127]) = .next (stepState (sample 3 [4] [-5, 127])) ∧ 128 ≤ 128 ∧
    (stepState (sample 3 [4] [-5, 127])).status = .ready := ⟨rfl, by decide⟩

theorem witness_StoppedRunGoesNoFurther :
    (stepState State.reset).status ≠ .ready ∧ (executeMany 2 (stepState State.reset)).2.length = 2 := by decide

theorem witness_ImageSweepInvertsEncoding :
    [Instr.push 2, .halt].length ≤ 2 ∧ [Instr.push 2, .halt].flatMap encode = [2, 2, 0] := by decide

theorem witness_RoundTripUnderEitherBase :
    ((0 : Int) = 0 ∨ (0 : Int) = 1) ∧ ((1 : Int) = 0 ∨ (1 : Int) = 1) ∧ encodeAt 1 (.push 7) = [3, 7] := by decide

theorem witness_GenerateEmitsOneWordPerNode :
    generate [{ sourceText := "pu".toList, kind := .operation .push, comment := none },
      { sourceText := "127".toList, kind := .data 127, comment := none }] = .ok [2, 127] ∧
    generate [{ sourceText := "pu".toList, kind := .operation .push, comment := none },
      { sourceText := "128".toList, kind := .data 128, comment := none }] = .error (.dataRange 1) := by decide

theorem witness_ParseReportsTheFirstBadLine :
    (linesOf "pu\n+5\n# x".toList).length ≤ 256 ∧ parse "pu\n+5\n# x".toList = .error (.syntaxError 1) ∧
    (linesOf "\n7".toList).length ≤ 256 ∧
    parse "\n7".toList = .ok [{ sourceText := "7".toList, kind := .data 7, comment := none }] ∧
    parseLine 0 "7".toList = .ok { sourceText := "7".toList, kind := .data 7, comment := none } := by decide

theorem witness_EitherBaseReachesTheWholeMachine :
    (Parameters.admitted ⟨0, .truncated⟩ ∧ Parameters.admitted ⟨1, .floored⟩) ∧
    ((sample 254 [3, 42] []).status = .ready ∧
      decodeAt 1 ((sample 254 [3, 42] []).cell 254)
        (if (sample 254 [3, 42] []).ip.val + 1 < 256 then [(sample 254 [3, 42] []).cell 255] else []) =
          .instr (.push 42) [] ∧
      decodeAt 1 ((sample 255 [1] []).cell 255)
        (if (sample 255 [1] []).ip.val + 1 < 256 then [(sample 255 [1] []).cell 256] else []) = .instr .halt []) ∧
    (∀ op : Operation, (1 : Int) + op.ordinal ≠ ((sample 0 [0] []).cell 0).toInt) ∧
    ([Instr.push 42, .halt].flatMap (encodeAt 1)).length ≤ 256 :=
  ⟨⟨.inl rfl, .inr rfl⟩, by decide, fun op => by cases op <;> decide, by decide⟩

theorem witness_OnlyDivideFollowsTheRemainderMode :
    Instr.halt ≠ .divide ∧
    (2 ≤ (sample 254 [9] [2, -7]).sc.val ∧ (sample 254 [9] [2, -7]).second ≠ 0 ∧
      ¬ ((sample 254 [9] [2, -7]).top = -128 ∧ (sample 254 [9] [2, -7]).second = -1) ∧
      (sample 254 [9] [2, -7]).ip.val < 255) ∧
    (2 ≤ (sample 254 [9] [0, 9]).sc.val ∧ (sample 254 [9] [0, 9]).second = 0 ∧ (sample 254 [9] [0, 9]).ip.val < 255) ∧
    (sample 0 [9] [3]).sc.val < 2 ∧ ((sample 0 [9] [-1, -128]).top = -128 ∧ (sample 0 [9] [-1, -128]).second = -1) ∧
    (sample 255 [9] [1, 2]).ip.val = 255 := by decide

theorem witness_AssembledListingIsTheEncoding :
    ([Instr.push (Word.ofValue (-128)), .halt].flatMap encode).length ≤ 256 ∧
    [Instr.push (Word.ofValue (-128)), .halt].flatMap listingOf = "pu\n-128\nha\n".toList := by decide

theorem witness_FailedAssemblyLeavesTheEngine :
    assembleAndLoad "xx".toList State.reset = (State.reset, some (.assembly (.invalidCode 0 "xx".toList))) ∧
    assembleAndLoad "".toList State.reset = (State.reset, some (.loading .empty)) ∧
    hostCall (.loadImage []) State.reset = (State.reset, .loadFailed .empty) := by decide

end Sys2Proof.Tests
end

/-! The proofs of the family of the state (10_state.md): what every step keeps of the stack's slots. -/

namespace Sys2Proof.Machine

/-- What a step can do, whatever the STATUS: leave the state, take a fault, or commit the checked effect of an
instruction. -/
theorem step_cases {s t : State} (h : step s = .next t) :
    t = s ∨ (∃ k, t = takeFault k s) ∨ (∃ i e, proposalOf i s = .ok e ∧ t = commit e s) := by
  by_cases hr : s.status = .ready
  · obtain ⟨e, -, ht⟩ | ⟨i, r, k, -, -, ht⟩ | ⟨i, r, e, -, hp, ht⟩ := step_ready hr h
    · exact .inr (.inl ⟨rejectFault e, ht⟩)
    · exact .inr (.inl ⟨k, ht⟩)
    · exact .inr (.inr ⟨i, e, hp, ht⟩)
  · rw [step_stopped hr, Host.Outcome.next.injEq] at h
    exact .inl h.symm

/-- A slot above the last push of a commit is 0 where it was popped, and else as before. -/
theorem commit_slot_above {e : Effect} {s : State} {i : Nat} (hp : e.pops ≤ s.sc.val)
    (hi : s.sc.val - e.pops + e.pushes.length ≤ i) :
    (commit e s).slot i = if i < s.sc.val then 0 else s.slot i := by
  have hnone : (e.pushes.map Word.ofValue)[i - (s.sc.val - e.pops)]? = none :=
    List.getElem?_eq_none (by rw [List.length_map]; omega)
  rw [commit_slot e s i hp, if_neg (by omega), hnone, Option.getD_none]

/-- Commit keeps R24: a slot at or above the new SC was popped and zero-filled (R106), or was at or above the old SC. -/
theorem commit_zeroAboveCounter {e : Effect} {s : State} (hp : e.pops ≤ s.sc.val) (hst : e.stackInRange s)
    (hz : ZeroAboveCounter s) : ZeroAboveCounter (commit e s) := by
  intro i hi
  rw [commit_sc_val hp hst] at hi
  rw [commit_slot_above hp hi]
  split_ifs with hlt
  · rfl
  · exact hz i (by omega)

/-- Taking a fault keeps R24: it changes neither SC nor a slot (R202). -/
theorem takeFault_zeroAboveCounter (k : FaultKind) {s : State} (hz : ZeroAboveCounter s) :
    ZeroAboveCounter (takeFault k s) := hz

/-- Every step keeps R24. -/
theorem step_zeroAboveCounter {s t : State} (hz : ZeroAboveCounter s) (h : step s = .next t) :
    ZeroAboveCounter t := by
  obtain rfl | ⟨k, rfl⟩ | ⟨i, e, hp, rfl⟩ := step_cases h
  · exact hz
  · exact takeFault_zeroAboveCounter k hz
  · obtain ⟨-, -, hv⟩ := proposalOf_ok.mp hp
    obtain ⟨-, -, -, hst, -⟩ := validate_ok.mp hv
    exact commit_zeroAboveCounter (proposalOf_pops hp) hst hz

/-- RESET meets R24: every slot is 0 (R230). -/
theorem reset_zeroAboveCounter : ZeroAboveCounter State.reset := fun i _ => reset_slot i

/-- Settles O35: RESET meets R24 and every step keeps it. -/
theorem stackReadsZeroAboveTheCounter : Obligations.StackReadsZeroAboveTheCounter :=
  ⟨reset_zeroAboveCounter, fun _ _ hz h => step_zeroAboveCounter hz h⟩

end Sys2Proof.Machine

/-! The proofs of the family of the encoding (30_encoding.md): illegal Words, the mnemonic table, Generate, and a failed
assembly. -/

namespace Sys2Proof

/-- A Word that is the opcode of no operation decodes to none (R64, R67). -/
theorem decodeOperation_eq_none {w : Word} : decodeOperation w = none ↔ ∀ op : Operation, op.opcode ≠ w.toInt := by
  simp only [Option.eq_none_iff_forall_ne_some, ne_eq, decodeOperation_eq_some, eq_comm (a := w.toInt)]

/-- Every position below 19 holds an operation (R63). -/
theorem Operation.exists_ordinal {n : Nat} (h : n < 19) : ∃ op : Operation, op.ordinal = n := by
  have hsome : ∀ m < 19, (Operation.ofOrdinal m).isSome := by decide
  obtain ⟨op, hop⟩ := Option.isSome_iff_exists.mp (hsome n h)
  exact ⟨op, Operation.ordinal_of hop⟩

/-- The opcodes are the Words from 0 to 18 (R63). -/
theorem decodeOperation_isSome {w : Word} : (decodeOperation w).isSome ↔ w.toNat < 19 := by
  have hw := BitVec.toInt_eq_toNat_cond w
  simp only [Option.isSome_iff_exists, decodeOperation_eq_some, Operation.opcode_eq]
  constructor
  · rintro ⟨op, hop⟩
    have := op.ordinal_lt
    simp only [Config.numOps] at this
    split_ifs at hw <;> omega
  · intro h
    obtain ⟨op, hop⟩ := Operation.exists_ordinal h
    exact ⟨op, by rw [hw, if_pos (by omega), hop]⟩

/-- 19 of the 256 Words decode to an operation (R67). -/
theorem length_opcodeWords :
    ((List.range 256).filter fun n => (decodeOperation (BitVec.ofNat 8 n)).isSome).length = 19 := by
  have hlt : ∀ n ∈ List.range 256, (decodeOperation (BitVec.ofNat 8 n)).isSome = decide (n < 19) := by
    intro n hn
    rw [Bool.eq_iff_iff, decodeOperation_isSome, decide_eq_true_iff, BitVec.toNat_ofNat,
      Nat.mod_eq_of_lt (List.mem_range.mp hn)]
  rw [List.filter_congr hlt]
  rfl

/-- The other 237 do not (R67). -/
theorem length_illegalWords :
    ((List.range 256).filter fun n => (decodeOperation (BitVec.ofNat 8 n)).isNone).length = 237 := by
  have hsplit := List.length_eq_length_filter_add (l := List.range 256)
    fun n => (decodeOperation (BitVec.ofNat 8 n)).isSome
  simp only [Option.not_isSome] at hsplit
  rw [length_opcodeWords, List.length_range] at hsplit
  omega

namespace Machine

/-- A step from READY at an illegal Word fails with INVALID_OPCODE (R67, R202). -/
theorem step_illegalWord {s : State} (hr : s.status = .ready) (h : ∀ op : Operation, op.opcode ≠ s.fetchedWord.toInt) :
    step s = .next (takeFault .invalidOpcode s) :=
  step_rejected hr (decode_rejected s.afterOpcode (decodeOperation_eq_none.mpr h))

/-- Settles O23: an illegal Word decodes to nothing, and the opcodes are the Words 0 to 18. -/
theorem illegalWordFailsTheStep : Obligations.IllegalWordFailsTheStep :=
  ⟨fun s hr h => ⟨takeFault .invalidOpcode s, step_illegalWord hr h, rfl⟩, length_opcodeWords, length_illegalWords⟩

/-! Generate (R88). -/

/-- A Data node whose value is no Word: what Generate refuses (R88). -/
def ParseNode.OutOfRange (node : ParseNode) : Prop := ∃ v, node.kind = .data v ∧ ¬ inWord v

/-- The Word `w` is the one that R88 gives `node`: its value, or its opcode. -/
def ParseNode.Emits (base : Int) (node : ParseNode) (w : Word) : Prop :=
  (∃ v, node.kind = .data v ∧ inWord v ∧ w = Word.ofValue v) ∨
  (∃ op : Operation, node.kind = .operation op ∧ w = Word.ofValue (op.opcodeAt base))

/-- What Generate does at its first node: refuse it, or emit its Word in front of the Words of the others. -/
theorem generateFrom_cons (base : Int) (i : Nat) (node : ParseNode) (nodes : List ParseNode) :
    (node.OutOfRange ∧ generateFrom base i (node :: nodes) = .error (.dataRange i)) ∨
    (¬ node.OutOfRange ∧ ∃ w, node.Emits base w ∧
      generateFrom base i (node :: nodes) = (generateFrom base (i + 1) nodes).map (w :: ·)) := by
  cases hk : node.kind with
  | data v =>
    by_cases hv : inWord v
    · refine .inr ⟨?_, Word.ofValue v, .inl ⟨v, hk, hv, rfl⟩, ?_⟩
      · rintro ⟨v', hv', hbad⟩
        cases hk.symm.trans hv'
        exact hbad hv
      · rw [generateFrom, hk]
        simp only [if_neg (not_not_intro hv)]
        cases generateFrom base (i + 1) nodes <;> rfl
    · exact .inl ⟨⟨v, hk, hv⟩, by rw [generateFrom, hk]; exact if_pos hv⟩
  | operation op =>
    refine .inr ⟨?_, Word.ofValue (op.opcodeAt base), .inr ⟨op, hk, rfl⟩, ?_⟩
    · rintro ⟨v', hv', -⟩
      cases hk.symm.trans hv'
    · simp only [generateFrom, hk]
      cases generateFrom base (i + 1) nodes <;> rfl

/-- Where Generate succeeds, its Words are those of the nodes, one for each, in order. -/
theorem generateFrom_ok {base : Int} {nodes : List ParseNode} {i : Nat} {words : List Word}
    (h : generateFrom base i nodes = .ok words) : List.Forall₂ (ParseNode.Emits base) nodes words := by
  induction nodes generalizing i words with
  | nil => cases h; exact .nil
  | cons node nodes ih =>
    obtain ⟨-, he⟩ | ⟨-, w, hw, hm⟩ := generateFrom_cons base i node nodes
    · cases he.symm.trans h
    · rw [hm] at h
      cases hg : generateFrom base (i + 1) nodes with
      | error e => rw [hg] at h; cases h
      | ok ws => rw [hg] at h; cases h; exact .cons hw (ih hg)

/-- Where Generate fails, it names the first node out of range, counted from its first index. -/
theorem generateFrom_error {base : Int} {nodes : List ParseNode} {i : Nat} {e : AsmError}
    (h : generateFrom base i nodes = .error e) :
    ∃ before node after, nodes = before ++ node :: after ∧ e = .dataRange (i + before.length) ∧ node.OutOfRange ∧
      ∀ n ∈ before, ¬ n.OutOfRange := by
  induction nodes generalizing i with
  | nil => cases h
  | cons node nodes ih =>
    obtain ⟨hbad, he⟩ | ⟨hgood, w, -, hm⟩ := generateFrom_cons base i node nodes
    · cases he.symm.trans h
      exact ⟨[], node, nodes, rfl, rfl, hbad, by simp⟩
    · rw [hm] at h
      cases hg : generateFrom base (i + 1) nodes with
      | ok ws => rw [hg] at h; cases h
      | error e' =>
        rw [hg] at h; cases h
        obtain ⟨before, bad, after, rfl, rfl, hbad, hbefore⟩ := ih hg
        refine ⟨node :: before, bad, after, rfl, ?_, hbad, List.forall_mem_cons.mpr ⟨hgood, hbefore⟩⟩
        rw [List.length_cons, Nat.add_assoc, Nat.add_comm 1]

/-- Every opcode is a Word (R63). -/
theorem opcode_inWord (op : Operation) : inWord op.opcode := by
  have := op.ordinal_lt
  rw [inWord_iff, Operation.opcode_eq]
  simp only [Config.numOps] at this
  omega

/-- At the hardware's `OPCODE_BASE`, an emitted Word read as an integer is the node's value or opcode. -/
theorem ParseNode.Emits.toInt {node : ParseNode} {w : Word} (h : node.Emits Config.opcodeBase w) :
    (∃ v, node.kind = .data v ∧ inWord v ∧ w.toInt = v) ∨
    (∃ op : Operation, node.kind = .operation op ∧ w.toInt = op.opcode) := by
  obtain ⟨v, hk, hv, rfl⟩ | ⟨op, hk, rfl⟩ := h
  · exact .inl ⟨v, hk, hv, Word.toInt_ofValue hv⟩
  · exact .inr ⟨op, hk, Word.toInt_ofValue (opcode_inWord op)⟩

/-- Settles O53, by induction on the nodes: Generate gives the Word of every node, or stops at the first node out of
range. -/
theorem generateEmitsOneWordPerNode : Obligations.GenerateEmitsOneWordPerNode := by
  intro nodes
  constructor
  · intro words h
    have hall := generateFrom_ok h
    refine ⟨hall.length_eq.symm, fun i node hi => ?_⟩
    obtain ⟨hlt, rfl⟩ := List.getElem?_eq_some_iff.mp hi
    exact ⟨words[i]'(hall.length_eq ▸ hlt), List.getElem?_eq_getElem _, (hall.get hlt _).toInt⟩
  · intro e h
    obtain ⟨before, node, after, rfl, rfl, ⟨v, hk, hv⟩, hbefore⟩ := generateFrom_error h
    refine ⟨before.length, node, v, by rw [Nat.zero_add], by simp, hk, hv, fun j node' v' hj hn hk' => ?_⟩
    rw [List.getElem?_append_left hj] at hn
    by_contra hv'
    exact hbefore node' (List.mem_of_getElem? hn) ⟨v', hk', hv'⟩

/-! The mnemonic table (R87). -/

/-- The canonical enumeration lists every operation (R63). -/
theorem mem_allOperations (op : Operation) : op ∈ allOperations := by cases op <;> decide

/-- No operation earlier in the enumeration has the mnemonic of a later one. -/
theorem lookupMnemonic_mnemonic (op : Operation) : lookupMnemonic (mnemonic op) = some op := by cases op <;> rfl

/-- A token looks up to an operation exactly if it is its mnemonic (R84, R87). -/
theorem lookupMnemonic_eq_some {token : Text} {op : Operation} :
    lookupMnemonic token = some op ↔ token = mnemonic op := by
  constructor
  · intro h
    rw [lookupMnemonic] at h
    have hbeq := List.find?_some h
    exact (eq_of_beq hbeq).symm
  · rintro rfl
    exact lookupMnemonic_mnemonic op

/-- Settles O52: the table is the spec's, and lookup inverts it. -/
theorem mnemonicTableIsExact : Obligations.MnemonicTableIsExact :=
  ⟨rfl, mem_allOperations, fun _ _ => lookupMnemonic_eq_some⟩

/-! A failed assembly (R94). -/

/-- An assembly error is reported, and the state is left as it was. -/
theorem assembleAndLoad_of_assemble_error {text : Text} {e : AsmError} (s : State) (h : assemble text = .error e) :
    assembleAndLoad text s = (s, some (.assembly e)) := by
  rw [assembleAndLoad_eq, h]

/-- Where assembling and loading reports an error, the state is left as it was. -/
theorem assembleAndLoad_error {text : Text} {s u : State} {e : BootError}
    (h : assembleAndLoad text s = (u, some e)) : u = s := by
  cases ha : assemble text with
  | error ae =>
    cases (assembleAndLoad_of_assemble_error s ha).symm.trans h
    rfl
  | ok words =>
    rw [assembleAndLoad_eq, ha] at h
    cases hl : loadImage words s with
    | error le => simp only [hl] at h; cases h; rfl
    | ok t => simp only [hl] at h; cases h

/-- A LOAD_IMAGE call that fails leaves the state as it was (R231). -/
theorem hostCall_loadFailed {words : List Word} {s u : State} {e : LoadError}
    (h : hostCall (.loadImage words) s = (u, .loadFailed e)) : u = s := by
  rw [hostCall_loadImage] at h
  cases hl : loadImage words s with
  | error le => simp only [hl] at h; cases h; rfl
  | ok t => simp only [hl] at h; cases h

/-- Settles O56: every error of assembling and of loading comes back with the state it was given. -/
theorem failedAssemblyLeavesTheEngine : Obligations.FailedAssemblyLeavesTheEngine :=
  ⟨fun _ _ _ _ => assembleAndLoad_error, fun _ s _ => assembleAndLoad_of_assemble_error s,
    fun _ _ _ _ => hostCall_loadFailed⟩

end Machine

end Sys2Proof

/-! The proofs of the family of the control and stack instructions (41_control_stack.md): noOperation and pop. -/

namespace Sys2Proof.Machine

/-! An instruction that proposes to pop, push no more than it popped, and go on (`Effect.replace`). -/

/-- Such an effect cannot overflow the stack (R105, check 3). -/
theorem replace_stackInRange {pops : Nat} {pushes : List Int} (s : State) (hlen : pushes.length ≤ pops) :
    (Effect.replace pops pushes).stackInRange s := by
  simp only [Effect.stackInRange, Effect.replace, Config.stackSize, Config.wordBits]
  omega

/-- Its new IP is in Memory exactly from below IP 255 (R105, check 4). -/
theorem replace_ipInRange_iff (pops : Nat) (pushes : List Int) (s : State) :
    (Effect.replace pops pushes).ipInRange s ↔ s.ip.val < 255 := by
  simp only [Effect.ipInRange, Effect.replace, inMem_iff, Bool.false_eq_true, false_or]
  omega

/-- Where its pushes are Words, it passes validation below IP 255 (R105). -/
theorem validate_replace_ok {pops : Nat} {pushes : List Int} {s : State} (hpush : ∀ v ∈ pushes, inWord v)
    (hlen : pushes.length ≤ pops) (hip : s.ip.val < 255) :
    validate (Effect.replace pops pushes) s = .ok (Effect.replace pops pushes) :=
  validate_ok.mpr ⟨rfl, hpush, rfl, replace_stackInRange s hlen, (replace_ipInRange_iff pops pushes s).mpr hip⟩

/-- At IP 255 it fails the check of the new IP, the last of R105, and no check before it. -/
theorem validate_replace_rangeIp {pops : Nat} {pushes : List Int} {s : State} (hpush : ∀ v ∈ pushes, inWord v)
    (hlen : pushes.length ≤ pops) (hip : s.ip.val = 255) :
    validate (Effect.replace pops pushes) s = .error .rangeIp := by
  have hnext : ¬ (Effect.replace pops pushes).ipInRange s := by rw [replace_ipInRange_iff]; omega
  exact validate_error.mpr (.inr (.inr (.inr ⟨rfl, hpush, rfl, replace_stackInRange s hlen, hnext⟩)))

/-- An instruction that proposes such an effect completes as it says, where its operands are there and IP is below 255. -/
theorem completes_of_replace {i : Instr} {s : State} {pops : Nat} {pushes : List Int}
    (hh : handlerOf i s = .ok (Effect.replace pops pushes)) (hp : popsOf i.operation ≤ s.sc.val)
    (hpush : ∀ v ∈ pushes, inWord v) (hlen : pushes.length ≤ pops) (hip : s.ip.val < 255) :
    Completes i pops pushes 1 s :=
  completes_of (proposalOf_ok.mpr ⟨hp, hh, validate_replace_ok hpush hlen hip⟩) rfl rfl

/-- At IP 255 it fails with RANGE_IP. -/
theorem failsAs_rangeIp_of_replace {i : Instr} {s : State} {pops : Nat} {pushes : List Int}
    (hh : handlerOf i s = .ok (Effect.replace pops pushes)) (hp : popsOf i.operation ≤ s.sc.val)
    (hpush : ∀ v ∈ pushes, inWord v) (hlen : pushes.length ≤ pops) (hip : s.ip.val = 255) :
    FailsAs i .rangeIp s :=
  failsAs_of (proposalOf_error.mpr (.inr ⟨hp, .inr ⟨_, hh, validate_replace_rangeIp hpush hlen hip⟩⟩))

/-- Without its operands an instruction fails with STACK_UNDERFLOW, whatever else is wrong (R104). -/
theorem failsAs_stackUnderflow {i : Instr} {s : State} (h : s.sc.val < popsOf i.operation) :
    FailsAs i .stackUnderflow s :=
  failsAs_of (proposalOf_error.mpr (.inl ⟨rfl, h⟩))

/-- Settles O2: noOperation needs no operand and proposes the empty effect, so only the new IP can be refused. -/
theorem noOperationOnlyAdvances : Obligations.NoOperationOnlyAdvances :=
  ⟨rfl, fun s => completes_of_replace rfl (Nat.zero_le s.sc.val) (List.forall_mem_nil _) le_rfl,
    fun s => failsAs_rangeIp_of_replace rfl (Nat.zero_le s.sc.val) (List.forall_mem_nil _) le_rfl⟩

/-- Settles O4: pop proposes to remove one entry and push none. The operand count is checked first, so it decides the
fault where SC is 0, and the new IP decides it elsewhere (R104, R123). -/
theorem popDiscardsTheTop : Obligations.PopDiscardsTheTop := by
  refine ⟨rfl, fun s hsc => completes_of_replace rfl hsc (List.forall_mem_nil _) zero_le_one, ?_⟩
  rintro s ⟨k, hk⟩
  obtain hsc | hsc := Nat.lt_or_ge s.sc.val 1
  · exact ⟨.stackUnderflow, hsc, failsAs_stackUnderflow hsc⟩
  · cases k with
    | stackUnderflow => exact absurd hk (Nat.not_lt.mpr hsc)
    | rangeIp => exact ⟨.rangeIp, hk, failsAs_rangeIp_of_replace rfl hsc (List.forall_mem_nil _) zero_le_one hk⟩
    | _ => exact hk.elim

end Sys2Proof.Machine

/-! The proofs of the family of the memory instructions (42_memory_ops.md): store and load. -/

namespace Sys2Proof.Machine

/-! The faults of an instruction that addresses Memory by `top`, its one addressing mode (R142). -/

/-- What makes an instruction fail that pops `pops` operands and addresses Memory by `top`. -/
def AddressingFault (pops : Nat) (s : State) : FaultKind → Prop
  | .stackUnderflow => s.sc.val < pops
  | .rangeMemoryAddress => ¬ inMem s.top
  | .rangeIp => s.ip.val = 255
  | _ => False

/-- The operand count is checked first, then the address, then the new IP (R104, R105): the first that is wrong decides the
fault. -/
theorem failsOn_addressingFault {i : Instr} {s : State}
    (haddr : popsOf i.operation ≤ s.sc.val → ¬ inMem s.top → FailsAs i .rangeMemoryAddress s)
    (hip : popsOf i.operation ≤ s.sc.val → inMem s.top → s.ip.val = 255 → FailsAs i .rangeIp s) :
    FailsOn i (AddressingFault (popsOf i.operation) s) s := by
  rintro ⟨k, hk⟩
  obtain hsc | hsc := Nat.lt_or_ge s.sc.val (popsOf i.operation)
  · exact ⟨.stackUnderflow, hsc, failsAs_stackUnderflow hsc⟩
  by_cases hmem : inMem s.top
  · cases k with
    | stackUnderflow => exact absurd hk (Nat.not_lt.mpr hsc)
    | rangeMemoryAddress => exact absurd hmem hk
    | rangeIp => exact ⟨.rangeIp, hk, hip hsc hmem hk⟩
    | _ => exact hk.elim
  · exact ⟨.rangeMemoryAddress, hmem, haddr hsc hmem⟩

/-! store (R140). -/

/-- The effect that store proposes: `Effect.replace 2 []` with a write of `second` at `top`. -/
def storeEffect (s : State) : Effect := { Effect.replace 2 [] with write := some (s.top, s.second) }

theorem handlerOf_store (s : State) : handlerOf .store s = .ok (storeEffect s) := rfl

/-- The write passes validation where its address is in Memory: `second` is always a Word (R105, check 2). -/
theorem storeEffect_writeFault (s : State) :
    (storeEffect s).writeFault = if inMem s.top then none else some .rangeMemoryAddress := by
  simp only [Effect.writeFault, storeEffect, ite_not, if_pos (second_inWord s)]

theorem storeEffect_stackInRange (s : State) : (storeEffect s).stackInRange s :=
  replace_stackInRange (pops := 2) (pushes := []) s zero_le_two

theorem storeEffect_ipInRange_iff (s : State) : (storeEffect s).ipInRange s ↔ s.ip.val < 255 :=
  replace_ipInRange_iff 2 [] s

theorem proposalOf_store_ok {s : State} (hsc : 2 ≤ s.sc.val) (hmem : inMem s.top) (hip : s.ip.val < 255) :
    proposalOf .store s = .ok (storeEffect s) :=
  proposalOf_ok.mpr ⟨hsc, handlerOf_store s, validate_ok.mpr ⟨rfl, List.forall_mem_nil _,
    by rw [storeEffect_writeFault, if_pos hmem], storeEffect_stackInRange s, (storeEffect_ipInRange_iff s).mpr hip⟩⟩

theorem store_failsAs_rangeMemoryAddress {s : State} (hsc : 2 ≤ s.sc.val) (hmem : ¬ inMem s.top) :
    FailsAs .store .rangeMemoryAddress s := by
  have hv : validate (storeEffect s) s = .error .rangeMemoryAddress :=
    validate_error.mpr (.inr (.inl ⟨List.forall_mem_nil _, by rw [storeEffect_writeFault, if_neg hmem]⟩))
  exact failsAs_of (proposalOf_error.mpr (.inr ⟨hsc, .inr ⟨_, handlerOf_store s, hv⟩⟩))

theorem store_failsAs_rangeIp {s : State} (hsc : 2 ≤ s.sc.val) (hmem : inMem s.top) (hip : s.ip.val = 255) :
    FailsAs .store .rangeIp s := by
  have hnext : ¬ (storeEffect s).ipInRange s := by rw [storeEffect_ipInRange_iff]; omega
  have hv : validate (storeEffect s) s = .error .rangeIp :=
    validate_error.mpr (.inr (.inr (.inr ⟨rfl, List.forall_mem_nil _, by rw [storeEffect_writeFault, if_pos hmem],
      storeEffect_stackInRange s, hnext⟩)))
  exact failsAs_of (proposalOf_error.mpr (.inr ⟨hsc, .inr ⟨_, handlerOf_store s, hv⟩⟩))

/-- Committing the effect of store writes the one cell (R106). -/
theorem commit_storeEffect_storedAt (s : State) :
    StoredAt s.top.toNat s.second s (commit (storeEffect s) s) := by
  constructor
  · rw [commit_cell]
    simp only [storeEffect, if_true, Word.toInt_ofValue (second_inWord s)]
  · intro b hb
    rw [commit_cell]
    simp only [storeEffect, if_neg hb]

/-- Settles O5: store's checked effect commits as a move of the stack and a write of one cell. -/
theorem storeWritesSecondAtTop : Obligations.StoreWritesSecondAtTop := by
  refine ⟨rfl, fun s hsc hmem hip => ?_,
    fun s => failsOn_addressingFault store_failsAs_rangeMemoryAddress store_failsAs_rangeIp⟩
  have hok := proposalOf_store_ok hsc hmem hip
  have hexec : exec .store s = .next (commit (storeEffect s) s) := by rw [exec_eq, hok]; rfl
  have hmoved := commit_moved (proposalOf_pops hok) rfl (proposalOf_ok.mp hok).2.2
  exact ⟨⟨_, hexec, hmoved, commit_storeEffect_storedAt s⟩, reports_of hok rfl⟩

/-! load (R141). -/

/-- Where `top` is a Memory address, load proposes to replace it by its cell. -/
theorem handlerOf_load_of_inMem {s : State} (hmem : inMem s.top) :
    handlerOf .load s = .ok (Effect.replace 1 [(s.cell s.top.toNat).toInt]) :=
  if_neg (not_not_intro hmem)

/-- Elsewhere its handler raises the fault. -/
theorem handlerOf_load_of_not_inMem {s : State} (hmem : ¬ inMem s.top) :
    handlerOf .load s = .error .rangeMemoryAddress :=
  if_pos hmem

/-- The one value load pushes is a cell, so it is a Word. -/
theorem load_pushes_inWord (s : State) : ∀ v ∈ [(s.cell s.top.toNat).toInt], inWord v :=
  List.forall_mem_singleton.mpr (Word.inWord_toInt _)

/-- Settles O6: load replaces one entry by one Word, and its handler refuses an address out of Memory. -/
theorem loadReplacesTopByItsCell : Obligations.LoadReplacesTopByItsCell := by
  refine ⟨rfl, fun s hsc hmem => completes_of_replace (handlerOf_load_of_inMem hmem) hsc (load_pushes_inWord s) le_rfl,
    fun s => failsOn_addressingFault (fun hsc hmem => ?_) (fun hsc hmem => ?_)⟩
  · exact failsAs_of (proposalOf_error.mpr (.inr ⟨hsc, .inl (handlerOf_load_of_not_inMem hmem)⟩))
  · exact failsAs_rangeIp_of_replace (handlerOf_load_of_inMem hmem) hsc (load_pushes_inWord s) le_rfl

end Sys2Proof.Machine

/-! The proofs of the family of the arithmetic instructions (43_arithmetic.md): add, subtract and multiply. -/

namespace Sys2Proof.Machine

/-- What makes an instruction fail that pops `pops` operands and pushes a computed result; `noWord` says that some pushed
value is not a Word (R105, check 1). -/
def ResultFault (pops : Nat) (noWord : Prop) (s : State) : FaultKind → Prop
  | .stackUnderflow => s.sc.val < pops
  | .rangeValue => noWord
  | .rangeIp => s.ip.val = 255
  | _ => False

/-- Where some pushed value is not a Word, validation fails at its first check (R105). -/
theorem failsAs_rangeValue {i : Instr} {s : State} {e : Effect} (hh : handlerOf i s = .ok e)
    (hp : popsOf i.operation ≤ s.sc.val) (hpush : ¬ e.pushesInRange) : FailsAs i .rangeValue s :=
  failsAs_of (proposalOf_error.mpr (.inr ⟨hp, .inr ⟨e, hh, validate_error.mpr (.inl ⟨rfl, hpush⟩)⟩⟩))

/-- The operand count is checked first, then the pushed values, then the new IP (R104, R105): the first that is wrong
decides the fault. -/
theorem failsOn_resultFault {i : Instr} {s : State} {pops : Nat} {pushes : List Int} {noWord : Prop}
    (hh : handlerOf i s = .ok (Effect.replace pops pushes)) (hlen : pushes.length ≤ pops)
    (hpush : (∀ v ∈ pushes, inWord v) ↔ ¬ noWord) :
    FailsOn i (ResultFault (popsOf i.operation) noWord s) s := by
  rintro ⟨k, hk⟩
  obtain hsc | hsc := Nat.lt_or_ge s.sc.val (popsOf i.operation)
  · exact ⟨.stackUnderflow, hsc, failsAs_stackUnderflow hsc⟩
  by_cases hbad : noWord
  · exact ⟨.rangeValue, hbad, failsAs_rangeValue hh hsc fun hw => hpush.mp hw hbad⟩
  · cases k with
    | stackUnderflow => exact absurd hk (Nat.not_lt.mpr hsc)
    | rangeValue => exact absurd hk hbad
    | rangeIp => exact ⟨.rangeIp, hk, failsAs_rangeIp_of_replace hh hsc (hpush.mpr hbad) hlen hk⟩
    | _ => exact hk.elim

/-- An instruction that proposes to replace its operands by the one integer `result s` pushes exactly that where it is a
Word, and fails where it is not: it never wraps (R154). -/
theorem pushes_exactly_of_handler {i : Instr} {result : State → Int} (hpos : 1 ≤ popsOf i.operation)
    (hh : ∀ s, handlerOf i s = .ok (Effect.replace (popsOf i.operation) [result s])) :
    (∀ s : State, popsOf i.operation ≤ s.sc.val → inWord (result s) → s.ip.val < 255 →
      Completes i (popsOf i.operation) [result s] 1 s) ∧
    ∀ s : State, FailsOn i (ResultFault (popsOf i.operation) (¬ inWord (result s)) s) s :=
  ⟨fun s hsc hw => completes_of_replace (hh s) hsc (List.forall_mem_singleton.mpr hw) hpos,
    fun s => failsOn_resultFault (hh s) hpos (List.forall_mem_singleton.trans not_not.symm)⟩

/-- Settles O7: add proposes the one result `top + second` (R150). -/
theorem addPushesTheExactSum : Obligations.AddPushesTheExactSum :=
  ⟨rfl, pushes_exactly_of_handler (i := .add) one_le_two fun _ => rfl⟩

/-- Settles O8: subtract proposes the one result `top - second`, the minuend being `top` (R151). -/
theorem subtractPushesTopMinusSecond : Obligations.SubtractPushesTopMinusSecond :=
  ⟨rfl, pushes_exactly_of_handler (i := .subtract) one_le_two fun _ => rfl⟩

/-- Settles O9: multiply proposes the one result `top * second` (R152). -/
theorem multiplyPushesTheExactProduct : Obligations.MultiplyPushesTheExactProduct :=
  ⟨rfl, pushes_exactly_of_handler (i := .multiply) one_le_two fun _ => rfl⟩

end Sys2Proof.Machine

/-! The proofs of the family of the comparison and logic instructions (44_compare_logic.md): less, greater, same, different,
and, or, not. -/

namespace Sys2Proof.Machine

/-! Truth values (R177). -/

theorem isOne_iff {v : Int} : isOne v = true ↔ v = 1 := decide_eq_true_iff

theorem isZero_iff {v : Int} : isZero v = true ↔ v = 0 := decide_eq_true_iff

theorem b2w_eq_ite {c : Bool} {p : Prop} [Decidable p] (h : c = true ↔ p) : b2w c = if p then 1 else 0 :=
  if_congr h rfl rfl

/-- A truth value is a Word, so pushing it never fails the check of the pushed values (R105, check 1). -/
theorem b2w_inWord (c : Bool) : inWord (b2w c) := by
  cases c <;> decide

/-! An instruction that replaces its operands by a truth value. -/

/-- What makes such an instruction fail, where it pops `pops` operands: no result of it is out of range. -/
def TruthFault (pops : Nat) (s : State) : FaultKind → Prop
  | .stackUnderflow => s.sc.val < pops
  | .rangeIp => s.ip.val = 255
  | _ => False

/-- These are the faults of a computed result that is always a Word. -/
theorem resultFault_false (pops : Nat) (s : State) : ResultFault pops False s = TruthFault pops s := by
  funext k
  cases k <;> rfl

/-- An instruction whose handler proposes the truth value `truth s` pushes 1 exactly where the condition that `truth` tests
holds, and fails only for want of an operand or of a next IP. -/
theorem pushes_truth_of_handler {i : Instr} {truth : State → Bool} {cond : State → Prop} [∀ s, Decidable (cond s)]
    (hpos : 1 ≤ popsOf i.operation) (hcond : ∀ s, truth s = true ↔ cond s)
    (hh : ∀ s, handlerOf i s = .ok (Effect.replace (popsOf i.operation) [b2w (truth s)])) :
    (∀ s : State, popsOf i.operation ≤ s.sc.val → s.ip.val < 255 →
      Completes i (popsOf i.operation) [if cond s then 1 else 0] 1 s) ∧
    ∀ s : State, FailsOn i (TruthFault (popsOf i.operation) s) s := by
  have hword (s : State) : ∀ v ∈ [b2w (truth s)], inWord v := List.forall_mem_singleton.mpr (b2w_inWord (truth s))
  constructor
  · intro s hsc hip
    rw [← b2w_eq_ite (hcond s)]
    exact completes_of_replace (hh s) hsc (hword s) hpos hip
  · intro s
    rw [← resultFault_false]
    exact failsOn_resultFault (hh s) hpos (iff_of_true (hword s) not_false)

/-- Settles O13: less tests `top < second` on the signed integers (R170). -/
theorem lessComparesTopWithSecond : Obligations.LessComparesTopWithSecond :=
  ⟨rfl, pushes_truth_of_handler (i := .less) one_le_two (fun _ => decide_eq_true_iff) fun _ => rfl⟩

/-- Settles O14: greater tests `top > second` on the signed integers (R171). -/
theorem greaterComparesTopWithSecond : Obligations.GreaterComparesTopWithSecond :=
  ⟨rfl, pushes_truth_of_handler (i := .greater) one_le_two (fun _ => decide_eq_true_iff) fun _ => rfl⟩

/-- Settles O15: same tests `top = second` (R172). -/
theorem sameTestsEquality : Obligations.SameTestsEquality :=
  ⟨rfl, pushes_truth_of_handler (i := .same) one_le_two (fun _ => decide_eq_true_iff) fun _ => rfl⟩

/-- Settles O16: different tests `top ≠ second` (R173). -/
theorem differentTestsInequality : Obligations.DifferentTestsInequality :=
  ⟨rfl, pushes_truth_of_handler (i := .different) one_le_two (fun _ => decide_eq_true_iff) fun _ => rfl⟩

/-- Settles O17: and takes the Word 1 alone as true, in both operands (R174, R177). -/
theorem andIsTrueOnlyOnTwoOnes : Obligations.AndIsTrueOnlyOnTwoOnes := by
  have hcond (s : State) : (isOne s.top && isOne s.second) = true ↔ s.top = 1 ∧ s.second = 1 := by
    rw [Bool.and_eq_true, isOne_iff, isOne_iff]
  exact ⟨rfl, pushes_truth_of_handler (i := .and) one_le_two hcond fun _ => rfl⟩

/-- Settles O18: or takes the Word 1 alone as true, in either operand (R175, R177). -/
theorem orIsTrueOnAOne : Obligations.OrIsTrueOnAOne := by
  have hcond (s : State) : (isOne s.top || isOne s.second) = true ↔ s.top = 1 ∨ s.second = 1 := by
    rw [Bool.or_eq_true, isOne_iff, isOne_iff]
  exact ⟨rfl, pushes_truth_of_handler (i := .or) one_le_two hcond fun _ => rfl⟩

/-- Settles O19: not takes the Word 0 alone as false, and its one operand is replaced (R176, R177). -/
theorem notIsTrueOnlyOnZero : Obligations.NotIsTrueOnlyOnZero :=
  ⟨rfl, pushes_truth_of_handler (i := .not) le_rfl (fun _ => isZero_iff) fun _ => rfl⟩

end Sys2Proof.Machine

/-! The proofs of the family of the jumps (45_jumps.md): jump and jumpConditionally. -/

namespace Sys2Proof.Machine

/-! An instruction that proposes to pop and to go to an absolute target (R192). -/

/-- The effect of going to `target`: `Effect.replace pops []` with the delta from IP to `target`. -/
def jumpEffect (pops : Nat) (target : Int) (s : State) : Effect :=
  { Effect.replace pops [] with ipDelta := target - s.ip.val }

theorem jumpEffect_stackInRange (pops : Nat) (target : Int) (s : State) : (jumpEffect pops target s).stackInRange s :=
  replace_stackInRange s pops.zero_le

/-- The check of the new IP is a check of the target alone: where the jump stands does not matter (R105, check 4). -/
theorem jumpEffect_ipInRange_iff (pops : Nat) (target : Int) (s : State) :
    (jumpEffect pops target s).ipInRange s ↔ inMem target := by
  simp only [Effect.ipInRange, jumpEffect, Effect.replace, Bool.false_eq_true, false_or, add_sub_cancel]

theorem validate_jumpEffect_ok {pops : Nat} {target : Int} {s : State} (ht : inMem target) :
    validate (jumpEffect pops target s) s = .ok (jumpEffect pops target s) :=
  validate_ok.mpr ⟨rfl, List.forall_mem_nil _, rfl, jumpEffect_stackInRange pops target s,
    (jumpEffect_ipInRange_iff pops target s).mpr ht⟩

theorem validate_jumpEffect_rangeIp {pops : Nat} {target : Int} {s : State} (ht : ¬ inMem target) :
    validate (jumpEffect pops target s) s = .error .rangeIp :=
  validate_error.mpr (.inr (.inr (.inr ⟨rfl, List.forall_mem_nil _, rfl, jumpEffect_stackInRange pops target s,
    mt (jumpEffect_ipInRange_iff pops target s).mp ht⟩)))

/-- An instruction that proposes such an effect completes where its operands are there and the target is in Memory. -/
theorem completes_of_jump {i : Instr} {s : State} {pops : Nat} {target : Int}
    (hh : handlerOf i s = .ok (jumpEffect pops target s)) (hsc : popsOf i.operation ≤ s.sc.val) (ht : inMem target) :
    Completes i pops [] (target - s.ip.val) s :=
  completes_of (proposalOf_ok.mpr ⟨hsc, hh, validate_jumpEffect_ok ht⟩) rfl rfl

/-- A move by `target - IP` ends at `target`. -/
theorem Moved.ip_eq_target {pops : Nat} {pushed : List Int} {target : Int} {s t : State}
    (h : Moved pops pushed (target - s.ip.val) s t) : (t.ip.val : Int) = target :=
  h.ip.trans (add_sub_cancel _ _)

/-- Running `i` where it completes with the delta from IP to `target` leaves IP at exactly `target`. -/
theorem Completes.goesTo {i : Instr} {pops : Nat} {pushed : List Int} {target : Int} {s : State}
    (h : Completes i pops pushed (target - s.ip.val) s) :
    (∃ t, exec i s = .next t ∧ (t.ip.val : Int) = target ∧ Moved pops pushed (target - s.ip.val) s t ∧ SameMemory s t) ∧
      Reports i pops pushed none (target - s.ip.val) s := by
  obtain ⟨⟨t, hexec, hmoved, hmem⟩, hreports⟩ := h
  exact ⟨⟨t, hexec, hmoved.ip_eq_target, hmoved, hmem⟩, hreports⟩

/-- What makes a jump fail that pops `pops` operands; `badTarget` says that its target is no Memory address. -/
def JumpFault (pops : Nat) (badTarget : Prop) (s : State) : FaultKind → Prop
  | .stackUnderflow => s.sc.val < pops
  | .rangeIp => badTarget
  | _ => False

/-- The operand count is checked first, then the target (R104, R105): the first that is wrong decides the fault. -/
theorem failsOn_jumpFault {i : Instr} {s : State} {pops : Nat} {target : Int} {badTarget : Prop}
    (hh : handlerOf i s = .ok (jumpEffect pops target s)) (hbad : badTarget ↔ ¬ inMem target) :
    FailsOn i (JumpFault (popsOf i.operation) badTarget s) s := by
  rintro ⟨k, hk⟩
  obtain hsc | hsc := Nat.lt_or_ge s.sc.val (popsOf i.operation)
  · exact ⟨.stackUnderflow, hsc, failsAs_stackUnderflow hsc⟩
  · cases k with
    | stackUnderflow => exact absurd hk (Nat.not_lt.mpr hsc)
    | rangeIp =>
      have hv := validate_jumpEffect_rangeIp (pops := pops) (s := s) (hbad.mp hk)
      exact ⟨.rangeIp, hk, failsAs_of (proposalOf_error.mpr (.inr ⟨hsc, .inr ⟨_, hh, hv⟩⟩))⟩
    | _ => exact hk.elim

/-! jump (R190). -/

theorem handlerOf_jump (s : State) : handlerOf .jump s = .ok (jumpEffect 1 s.top s) := rfl

/-- Settles O20: jump proposes to pop one entry and to go to `top`. -/
theorem jumpGoesToTop : Obligations.JumpGoesToTop :=
  ⟨rfl, fun s hsc ht => (completes_of_jump (handlerOf_jump s) hsc ht).goesTo,
    fun s => failsOn_jumpFault (handlerOf_jump s) Iff.rfl⟩

/-! jumpConditionally (R191). -/

/-- Where jumpConditionally goes: to `second` on the Word 1, else to the next address. -/
def State.conditionalTarget (s : State) : Int := if s.top = 1 then s.second else s.ip.val + 1

theorem conditionalTarget_of_one {s : State} (h : s.top = 1) : s.conditionalTarget = s.second := if_pos h

theorem conditionalTarget_of_ne_one {s : State} (h : s.top ≠ 1) : s.conditionalTarget = s.ip.val + 1 := if_neg h

/-- The next address is in Memory exactly from below IP 255. -/
theorem inMem_succ_ip_iff (s : State) : inMem ((s.ip.val : Int) + 1) ↔ s.ip.val < 255 := by
  rw [inMem_iff]
  omega

theorem not_inMem_conditionalTarget_iff (s : State) :
    (s.top = 1 ∧ ¬ inMem s.second) ∨ (s.top ≠ 1 ∧ s.ip.val = 255) ↔ ¬ inMem s.conditionalTarget := by
  by_cases h : s.top = 1
  · rw [conditionalTarget_of_one h]
    tauto
  · rw [conditionalTarget_of_ne_one h, inMem_succ_ip_iff]
    omega

/-- Taken or not, jumpConditionally is a jump: the delta 1 of falling through goes to the next address. -/
theorem handlerOf_jumpConditionally (s : State) :
    handlerOf .jumpConditionally s = .ok (jumpEffect 2 s.conditionalTarget s) := by
  have hdelta : (if isOne s.top then s.second - s.ipInt else 1) = s.conditionalTarget - s.ip.val := by
    by_cases h : s.top = 1
    · rw [if_pos (isOne_iff.mpr h), conditionalTarget_of_one h]; rfl
    · rw [if_neg (mt isOne_iff.mp h), conditionalTarget_of_ne_one h, add_sub_cancel_left]
  rw [jumpEffect, ← hdelta]
  rfl

/-- Where its operands are there and its target is in Memory, jumpConditionally completes. -/
theorem jumpConditionally_completes {s : State} (hsc : 2 ≤ s.sc.val) (ht : inMem s.conditionalTarget) :
    Completes .jumpConditionally 2 [] (s.conditionalTarget - s.ip.val) s :=
  completes_of_jump (handlerOf_jumpConditionally s) hsc ht

/-- Settles O21: jumpConditionally proposes to pop two entries and to go to `second` or to the next address, as `top`
decides. -/
theorem jumpConditionallyOnExactlyOne : Obligations.JumpConditionallyOnExactlyOne := by
  refine ⟨rfl, fun s hsc hone ht => ?_, fun s hsc hne hip => ?_,
    fun s => failsOn_jumpFault (handlerOf_jumpConditionally s) (not_inMem_conditionalTarget_iff s)⟩
  · have htarget := conditionalTarget_of_one hone
    exact (htarget ▸ jumpConditionally_completes hsc (htarget ▸ ht)).goesTo
  · have htarget := conditionalTarget_of_ne_one hne
    have hc := jumpConditionally_completes hsc (by rwa [htarget, inMem_succ_ip_iff])
    rwa [htarget, add_sub_cancel_left] at hc

end Sys2Proof.Machine

/-! The proofs of the family of the faults (60_exceptions.md): a failed step is precise. -/

namespace Sys2Proof.Machine

/-! Every fault that a check raises has a code other than NONE (R201). -/

theorem rejectFault_ne_none (e : DecodeError) : rejectFault e ≠ .none := by
  cases e <;> decide

/-- The two operand checks that a handler makes itself: the immediate's address and load's address (R203, point 3). -/
theorem handlerOf_error {i : Instr} {s : State} {k : FaultKind} (h : handlerOf i s = .error k) :
    (∃ imm, i = .push imm ∧ ¬ inMem (s.ipInt + 1) ∧ k = .rangeImmediateAddress) ∨
    (i = .load ∧ ¬ inMem s.top ∧ k = .rangeMemoryAddress) := by
  cases i with
  | push imm =>
    change handlePush imm s = .error k at h
    rw [handlePush] at h
    split_ifs at h with hmem
    cases h
    exact .inl ⟨imm, rfl, hmem, rfl⟩
  | load =>
    by_cases hmem : inMem s.top
    · cases (handlerOf_load_of_inMem hmem).symm.trans h
    · cases (handlerOf_load_of_not_inMem hmem).symm.trans h
      exact .inr ⟨rfl, hmem, rfl⟩
  | _ => cases h

/-- What the check of a Memory write can answer (R105, check 2). -/
theorem writeFault_eq_some {e : Effect} {k : FaultKind} (h : e.writeFault = some k) :
    ∃ a v, e.write = some (a, v) ∧
      ((¬ inMem a ∧ k = .rangeMemoryAddress) ∨ (inMem a ∧ ¬ inWord v ∧ k = .rangeValue)) := by
  rw [Effect.writeFault] at h
  cases hw : e.write with
  | none => simp [hw] at h
  | some w =>
    obtain ⟨a, v⟩ := w
    simp only [hw] at h
    refine ⟨a, v, rfl, ?_⟩
    split_ifs at h with hmem hword
    · cases h
      exact .inr ⟨hmem, hword, rfl⟩
    · cases h
      exact .inl ⟨hmem, rfl⟩

theorem validate_error_ne_none {e : Effect} {s : State} {k : FaultKind} (h : validate e s = .error k) : k ≠ .none := by
  obtain ⟨rfl, -⟩ | ⟨-, hw⟩ | ⟨rfl, -⟩ | ⟨rfl, -⟩ := validate_error.mp h
  · decide
  · obtain ⟨a, v, -, ⟨-, rfl⟩ | ⟨-, -, rfl⟩⟩ := writeFault_eq_some hw <;> decide
  · decide
  · decide

theorem proposalOf_error_ne_none {i : Instr} {s : State} {k : FaultKind} (h : proposalOf i s = .error k) :
    k ≠ .none := by
  obtain ⟨rfl, -⟩ | ⟨-, hh | ⟨e, -, hv⟩⟩ := proposalOf_error.mp h
  · decide
  · obtain ⟨imm, -, -, rfl⟩ | ⟨-, -, rfl⟩ := handlerOf_error hh <;> decide
  · exact validate_error_ne_none hv

/-- A commit from READY leaves READY or HALTED: only a fault taken enters FAULTED (R106, R202). -/
theorem commit_status_ne_faulted {s : State} (e : Effect) (hr : s.status = .ready) :
    (commit e s).status ≠ .faulted := by
  rw [commit_status, hr]
  split_ifs <;> decide

/-- Settles O27, by the three things a step from READY can do: each of the two that take a fault leaves and reports its
record, and a commit does not leave FAULTED. -/
theorem failedStepIsPrecise : Obligations.FailedStepIsPrecise := by
  intro s t hr hstep hfaulted
  obtain ⟨e, hfetch, rfl⟩ | ⟨i, r, k, hfetch, hp, rfl⟩ | ⟨i, r, e, -, -, rfl⟩ := step_ready hr hstep
  · exact ⟨rejectFault e, rejectFault_ne_none e, rfl, report_rejected hr hfetch⟩
  · exact ⟨k, proposalOf_error_ne_none hp, rfl, (report_instr hr hfetch).trans (reportOf_error hp)⟩
  · exact absurd hfaulted (commit_status_ne_faulted e hr)

end Sys2Proof.Machine

/-! The proofs of the family of the encoding, continued (30_encoding.md): decode and encode are inverse, under either
OPCODE_BASE. -/

namespace Sys2Proof

/-- The Words of an instruction after its opcode Word (R61, R65). -/
def Instr.immediates : Instr → List Word
  | .push imm => [imm]
  | _ => []

/-- An encoding is the opcode Word, then the immediates (R62). -/
theorem encodeAt_eq (base : Int) (i : Instr) :
    encodeAt base i = Word.ofValue (i.operation.opcodeAt base) :: i.immediates := by
  cases i <;> rfl

/-- Under every base, a Word decodes to an operation exactly if it is the base plus its position (R63, R64). -/
theorem decodeOperationAt_eq_some {base : Int} {w : Word} {op : Operation} :
    decodeOperationAt base w = some op ↔ w.toInt = base + op.ordinal := by
  rw [decodeOperationAt]
  constructor
  · intro h
    split_ifs at h with hle
    have := Operation.ordinal_of h
    omega
  · intro h
    rw [if_pos (by omega), show (w.toInt - base).toNat = op.ordinal by omega, Operation.ofOrdinal_ordinal]

/-- Decoding gives `i` exactly if the Word is its opcode and its immediates follow: for each operation the decoder asks for
as many Words as the instruction has. -/
theorem decodeAt_eq_instr {base : Int} {w : Word} {after rest : List Word} {i : Instr} :
    decodeAt base w after = .instr i rest ↔
      decodeOperationAt base w = some i.operation ∧ after = i.immediates ++ rest := by
  cases hop : decodeOperationAt base w with
  | none => simp [decodeAt, hop]
  | some op =>
    cases op with
    | push => cases after <;> cases i <;> simp [decodeAt, hop, Instr.operation, Instr.immediates]
    | _ => cases i <;> simp [decodeAt, hop, Instr.operation, Instr.immediates]

/-- The same at the hardware's `OPCODE_BASE`. -/
theorem decode_eq_instr {w : Word} {after rest : List Word} {i : Instr} :
    decode w after = .instr i rest ↔ decodeOperation w = some i.operation ∧ after = i.immediates ++ rest :=
  decodeAt_eq_instr

/-- Under the two bases of I6 every opcode is a Word. -/
theorem opcodeAt_inWord {base : Int} (hb : base = 0 ∨ base = 1) (op : Operation) : inWord (op.opcodeAt base) := by
  have := op.ordinal_lt
  rw [Machine.inWord_iff, Operation.opcodeAt]
  simp only [Config.numOps] at this
  omega

/-- A Word is the opcode Word of an operation exactly if it decodes to it. -/
theorem eq_ofValue_opcodeAt_iff {base : Int} (hb : base = 0 ∨ base = 1) {w : Word} {op : Operation} :
    w = Word.ofValue (op.opcodeAt base) ↔ decodeOperationAt base w = some op := by
  rw [decodeOperationAt_eq_some]
  constructor
  · rintro rfl
    exact Machine.Word.toInt_ofValue (opcodeAt_inWord hb op)
  · intro h
    rw [Operation.opcodeAt, ← h, Machine.Word.ofValue_toInt]

/-- Under either base, decoding a sequence gives `i` exactly if the sequence starts with the encoding of `i`. -/
theorem decodeAt_eq_instr_iff_encodeAt {base : Int} (hb : base = 0 ∨ base = 1) {w : Word} {after rest : List Word}
    {i : Instr} : decodeAt base w after = .instr i rest ↔ w :: after = encodeAt base i ++ rest := by
  rw [decodeAt_eq_instr, encodeAt_eq, List.cons_append, List.cons.injEq, eq_ofValue_opcodeAt_iff hb]

/-- Settles O48: the Words after the opcode that the decoder takes are those that the encoder emits. -/
theorem decodeAndEncodeAgree : Obligations.DecodeAndEncodeAgree :=
  fun _ _ _ _ => decodeAt_eq_instr_iff_encodeAt (.inl rfl)

/-- Settles O51: an encoding starts with itself. -/
theorem roundTripUnderEitherBase : Obligations.RoundTripUnderEitherBase :=
  fun base hb i _ => ⟨_, _, encodeAt_eq base i,
    (decodeAt_eq_instr_iff_encodeAt hb).mpr (by rw [encodeAt_eq, List.cons_append])⟩

/-- The first instruction of a sweep over an image that starts with its encoding (R60, R66). -/
theorem decodeAll_encode_append (n : Nat) (i : Instr) (rest : List Word) :
    decodeAll (n + 1) (encode i ++ rest) = (decodeAll n rest).map (i :: ·) := by
  obtain ⟨w, imms, henc, hdec⟩ := roundTripUnderEitherBase 0 (.inl rfl) i rest
  have henc' : encode i = w :: imms := henc
  have hdec' : decode w (imms ++ rest) = .instr i rest := hdec
  rw [henc', List.cons_append, decodeAll, hdec']

/-- Settles O49, by induction on the list of instructions. -/
theorem imageSweepInvertsEncoding : Obligations.ImageSweepInvertsEncoding := by
  intro program
  induction program with
  | nil => intro n _; cases n <;> rfl
  | cons i program ih =>
    intro n hn
    obtain ⟨m, rfl⟩ : ∃ m, n = m + 1 := ⟨n - 1, by rw [List.length_cons] at hn; omega⟩
    rw [List.flatMap_cons, decodeAll_encode_append, ih m (by simpa using hn)]
    rfl

/-- Settles O50: the eight decodings, computed. -/
theorem opcodeWordsDecodeAsTheTableSays : Obligations.OpcodeWordsDecodeAsTheTableSays :=
  ⟨rfl, rfl, rfl, rfl, rfl, rfl, rfl, rfl⟩

namespace Machine

/-- An instruction with no immediate is fetched exactly where the Word at IP is its opcode. -/
theorem fetch_iff_opcode {s : State} {i : Instr} (hi : i.immediates = []) :
    (∃ r, fetch s = .instr i r) ↔ s.cell s.ip.val = Word.ofValue i.operation.opcode := by
  have hword : s.cell s.ip.val = Word.ofValue i.operation.opcode ↔ decodeOperation s.fetchedWord = some i.operation :=
    eq_ofValue_opcodeAt_iff (.inl rfl)
  rw [hword]
  constructor
  · rintro ⟨r, hf⟩
    exact decode_operation hf
  · intro h
    exact ⟨s.afterOpcode, decode_eq_instr.mpr ⟨h, by rw [hi, List.nil_append]⟩⟩

end Machine

end Sys2Proof

/-! The proofs of the family of the state, continued (10_state.md sections 3 to 7, 70_reset_and_hazards.md): the canonical
form, and what every host call keeps. -/

namespace Sys2Proof.Machine

/-- The check of a Memory write passes exactly a write of a Word into Memory (R105, check 2). -/
theorem writeFault_eq_none {e : Effect} :
    e.writeFault = none ↔ ∀ a v, e.write = some (a, v) → inMem a ∧ inWord v := by
  rw [Effect.writeFault]
  cases hw : e.write with
  | none => exact iff_of_true rfl nofun
  | some w =>
    obtain ⟨a, v⟩ := w
    simp only [Option.some.injEq, Prod.mk.injEq]
    constructor
    · rintro h _ _ ⟨rfl, rfl⟩
      split_ifs at h with ha hv
      exact ⟨ha, hv⟩
    · intro h
      obtain ⟨ha, hv⟩ := h a v ⟨rfl, rfl⟩
      rw [if_neg (not_not_intro ha), if_neg (not_not_intro hv)]

/-- Commit keeps the canonical form: every push lands below 256 by check 3 of R105, and a write by check 2. -/
theorem commit_canonical {e : Effect} {s : State} (hp : e.pops ≤ s.sc.val) (hv : validate e s = .ok e)
    (hc : Canonical s) : Canonical (commit e s) := by
  obtain ⟨hmem, hstack⟩ := hc
  obtain ⟨-, -, hwrite, hst, -⟩ := validate_ok.mp hv
  constructor
  · rw [commit_mem, commitMemory]
    cases hw : e.write with
    | none => exact hmem
    | some w =>
      obtain ⟨a, v⟩ := w
      obtain ⟨ha, -⟩ := writeFault_eq_none.mp hwrite a v hw
      rw [inMem_iff] at ha
      exact Memory.wf_write hmem (by omega) _
  · simp only [Effect.stackInRange, Config.stackSize, Config.wordBits] at hst
    exact Memory.wf_writeAll (Memory.wf_zeroFill hstack _ _) (by rw [List.length_map]; omega)

/-- Every step keeps the canonical form: a fault changes no list. -/
theorem step_canonical {s t : State} (hc : Canonical s) (h : step s = .next t) : Canonical t := by
  obtain rfl | ⟨k, rfl⟩ | ⟨i, e, hp, rfl⟩ := step_cases h
  · exact hc
  · exact hc
  · exact commit_canonical (proposalOf_pops hp) (proposalOf_ok.mp hp).2.2 hc

/-- Settles O36: the one case that changes a list is a commit, whose validation keeps every index below 256. -/
theorem stepKeepsTheCanonicalForm : Obligations.StepKeepsTheCanonicalForm :=
  fun _ _ => step_canonical

theorem reset_invariant : Invariant State.reset := ⟨reset_zeroAboveCounter, rfl, rfl⟩

/-- Settles O37: every list of the reset state is empty. -/
theorem resetMeetsTheInvariant : Obligations.ResetMeetsTheInvariant := ⟨reset_invariant, rfl⟩

/-- LOAD_IMAGE keeps the invariant: it touches no slot, and an image has at most 256 Words (R231). -/
theorem loadImage_invariant {words : List Word} {s t : State} (hi : Invariant s) (h : loadImage words s = .ok t) :
    Invariant t := by
  obtain ⟨hz, hmem, hstack⟩ := hi
  obtain ⟨-, hlen, rfl⟩ := loadImage_ok h
  exact ⟨hz, Memory.wf_writeAll hmem (by omega), hstack⟩

/-- Every host call keeps the invariant. -/
theorem hostCall_invariant (c : HostCall) {s : State} (hi : Invariant s) : Invariant (hostCall c s).1 := by
  cases c with
  | reset => exact reset_invariant
  | loadImage words =>
    rw [hostCall_loadImage]
    cases h : loadImage words s with
    | error e => exact hi
    | ok t => exact loadImage_invariant hi h
  | execute =>
    obtain ⟨hz, hc⟩ := hi
    exact ⟨step_zeroAboveCounter hz (step_eq_stepState s), step_canonical hc (step_eq_stepState s)⟩

/-- Settles O38, by induction on the calls. -/
theorem hostCallsKeepTheInvariant : Obligations.HostCallsKeepTheInvariant := by
  intro calls
  induction calls with
  | nil => exact fun s hi => hi
  | cons c calls ih => exact fun s hi => ih _ (hostCall_invariant c hi)

/-- Settles O43: RESET does not look at the state it is called in. -/
theorem resetZeroesEverything : Obligations.ResetZeroesEverything :=
  fun s => ⟨State.reset, hostCall_reset s, rfl, rfl, reset_slot, reset_cell, rfl, rfl⟩

/-- Settles O42: a stopped step changes nothing, and a LOAD_IMAGE changes Memory alone. -/
theorem onlyResetLeavesAStop : Obligations.OnlyResetLeavesAStop := by
  intro c s hstop
  cases c with
  | reset => exact ⟨fun h => absurd rfl h, fun _ => rfl⟩
  | loadImage words =>
    refine ⟨fun _ => ?_, nofun⟩
    rw [hostCall_loadImage]
    cases h : loadImage words s with
    | error e => exact ⟨rfl, rfl⟩
    | ok t =>
      obtain ⟨-, -, rfl⟩ := loadImage_ok h
      exact ⟨rfl, rfl⟩
  | execute =>
    rw [hostCall_execute, step_next.mp (step_stopped hstop)]
    exact ⟨fun _ => ⟨rfl, rfl⟩, nofun⟩

/-! Images (R231). -/

/-- An image of 1 to 256 Words is loaded: the one change is to Memory. -/
theorem loadImage_eq_ok {words : List Word} (s : State) (h1 : 1 ≤ words.length) (h2 : words.length ≤ 256) :
    loadImage words s = .ok { s with mem := s.mem.writeAll 0 words } := by
  have hne := mt List.isEmpty_iff.mp (List.ne_nil_of_length_pos h1)
  have hle : ¬ words.length > Config.memSize := Nat.not_lt.mpr h2
  rw [loadImage, if_neg hne, if_neg hle]

/-- Every cell of a loaded Memory: the image's Word, or above the image what was there. -/
theorem cell_writeAll (s : State) (words : List Word) (a : Nat) :
    ({ s with mem := s.mem.writeAll 0 words } : State).cell a = (words[a]?).getD (s.cell a) := by
  rw [State.cell, Memory.read_writeAll, if_pos a.zero_le]
  rfl

theorem cell_writeAll_of_getElem? {s : State} {words : List Word} {a : Nat} {w : Word} (h : words[a]? = some w) :
    ({ s with mem := s.mem.writeAll 0 words } : State).cell a = w := by
  rw [cell_writeAll, h, Option.getD_some]

theorem cell_writeAll_of_length_le {s : State} {words : List Word} {a : Nat} (h : words.length ≤ a) :
    ({ s with mem := s.mem.writeAll 0 words } : State).cell a = s.cell a := by
  rw [cell_writeAll, List.getElem?_eq_none h, Option.getD_none]

/-- Settles O44: the length is checked before anything is written. -/
theorem loadImageOverwritesAPrefix : Obligations.LoadImageOverwritesAPrefix := by
  refine fun words s => ⟨?_, fun hlong => ?_, fun h1 h2 => ?_⟩
  · rintro rfl
    rfl
  · have hne := mt List.isEmpty_iff.mp (List.ne_nil_of_length_pos (by omega : 0 < words.length))
    have hgt : words.length > Config.memSize := hlong
    rw [loadImage, if_neg hne, if_pos hgt]
  · exact ⟨_, loadImage_eq_ok s h1 h2, fun _ _ => cell_writeAll_of_getElem?, fun _ => cell_writeAll_of_length_le,
      rfl, rfl, fun _ => rfl, rfl, rfl⟩

/-- Within the legal lengths, an image of integers is refused for its values or loaded as Words (R231). -/
theorem loadIntegers_eq {values : List Int} (s : State) (h1 : 1 ≤ values.length) (h2 : values.length ≤ 256) :
    loadIntegers values s =
      if ¬ ∀ v ∈ values, inWord v then .error .valueRange else loadImage (values.map Word.ofValue) s := by
  have hne := mt List.isEmpty_iff.mp (List.ne_nil_of_length_pos h1)
  have hle : ¬ values.length > Config.memSize := Nat.not_lt.mpr h2
  rw [loadIntegers, if_neg hne, if_neg hle]

/-- Settles O45: an image of integers that are Words is an image of those Words. -/
theorem integerImageIsRangeChecked : Obligations.IntegerImageIsRangeChecked := by
  refine fun values s h1 h2 => ⟨fun ⟨v, hv, hbad⟩ => ?_, fun hall => ?_⟩
  · rw [loadIntegers_eq s h1 h2, if_pos fun hall => hbad (hall v hv)]
  · have hload : loadIntegers values s = .ok { s with mem := s.mem.writeAll 0 (values.map Word.ofValue) } := by
      rw [loadIntegers_eq s h1 h2, if_neg (not_not_intro hall), loadImage_eq_ok s] <;> rwa [List.length_map]
    refine ⟨_, hload, fun i v hi => ?_, fun a ha => cell_writeAll_of_length_le (by rwa [List.length_map]), rfl, rfl,
      fun _ => rfl, rfl, rfl⟩
    rw [cell_writeAll_of_getElem? (w := Word.ofValue v) (by rw [List.getElem?_map, hi]; rfl),
      Word.toInt_ofValue (hall v (List.mem_of_getElem? hi))]

/-- A boot with no error assembled its text and loaded the Words after RESET (R234). -/
theorem boot_eq_none {text : Text} {s u : State} (h : boot text s = (u, none)) :
    ∃ words, assemble text = .ok words ∧ cleanLaunch words = .ok u := by
  have h' : assembleAndLoad text State.reset = (u, none) := h
  rw [assembleAndLoad_eq] at h'
  cases ha : assemble text with
  | error e => simp only [ha] at h'; cases h'
  | ok words =>
    simp only [ha] at h'
    cases hl : loadImage words State.reset with
    | error e => simp only [hl] at h'; cases h'
    | ok t => simp only [hl] at h'; cases h'; exact ⟨words, rfl, hl⟩

/-- Settles O46: a boot loads the assembled Words into the reset state. -/
theorem bootReachesTheLaunchState : Obligations.BootReachesTheLaunchState := by
  intro text s u h
  obtain ⟨words, hasm, hlaunch⟩ := boot_eq_none h
  refine ⟨words, hasm, hlaunch, ?_⟩
  obtain ⟨-, -, rfl⟩ := loadImage_ok hlaunch
  exact ⟨rfl, rfl, rfl, rfl, reset_slot, fun a => cell_writeAll State.reset words a⟩

end Sys2Proof.Machine

/-! The proofs of the family of the step (40_dispatch.md, 41_control_stack.md, 60_exceptions.md): halt, and how STATUS, FAULT
and the report stand after a step. -/

namespace Sys2Proof.Machine

/-! halt (R120). -/

/-- The effect that halt proposes. -/
def haltEffect : Effect := { pops := 0, pushes := [], write := none, ipDelta := 0, halt := true }

/-- Halt needs no operand, and its effect passes every check in every state. -/
theorem proposalOf_halt (s : State) : proposalOf .halt s = .ok haltEffect := by
  have hst : haltEffect.stackInRange s := by
    have := s.sc.isLt
    simp only [Effect.stackInRange, haltEffect, Config.stackSize, Config.wordBits, List.length_nil]
    omega
  exact proposalOf_ok.mpr ⟨Nat.zero_le _, rfl, validate_ok.mpr ⟨rfl, List.forall_mem_nil _, rfl, hst, .inl rfl⟩⟩

/-- Committing it changes STATUS alone. -/
theorem commit_haltEffect (s : State) : commit haltEffect s = { s with status := .halted } := by
  have hsc : (commit haltEffect s).sc = s.sc := Fin.ext (Nat.mod_eq_of_lt s.sc.isLt)
  calc commit haltEffect s = { s with status := .halted, sc := (commit haltEffect s).sc } := rfl
    _ = { s with status := .halted } := by rw [hsc]

theorem exec_halt (s : State) : exec .halt s = .next { s with status := .halted } := by
  rw [exec_eq, proposalOf_halt, conclude, commit_haltEffect]

theorem reportOf_halt (s : State) : reportOf .halt s = .success (haltReport Config.opcodeBase) :=
  reportOf_ok (proposalOf_halt s)

/-- Only halt proposes to halt, and it proposes nothing else. -/
theorem eq_halt_of_proposalOf {i : Instr} {s : State} {e : Effect} (h : proposalOf i s = .ok e) (hh : e.halt = true) :
    i = .halt ∧ e = haltEffect := by
  obtain ⟨-, hhandler, -⟩ := proposalOf_ok.mp h
  obtain rfl := (handler_halt hhandler).mp hh
  exact ⟨rfl, (Except.ok.inj ((proposalOf_halt s).symm.trans h)).symm⟩

/-- Settles O1: the effect of halt passes every check, and its commit changes STATUS alone. -/
theorem haltStopsTheMachine : Obligations.HaltStopsTheMachine :=
  ⟨rfl, fun s => ⟨⟨_, exec_halt s, rfl⟩, reportOf_halt s⟩⟩

/-! STATUS after a step. -/

/-- A commit from READY leaves HALTED exactly if its effect halts (R106). -/
theorem commit_status_eq_halted_iff {e : Effect} {s : State} (hr : s.status = .ready) :
    (commit e s).status = .halted ↔ e.halt = true := by
  rw [commit_status, hr]
  split_ifs with hh <;> simp [hh]

/-- It leaves READY exactly if its effect does not halt. -/
theorem commit_status_eq_ready_iff {e : Effect} {s : State} (hr : s.status = .ready) :
    (commit e s).status = .ready ↔ ¬ e.halt = true := by
  rw [commit_status, hr]
  split_ifs with hh <;> simp [hh]

/-- The Word 0 decodes to halt (R63). -/
theorem fetch_halt_iff {s : State} : (∃ r, fetch s = .instr .halt r) ↔ s.cell s.ip.val = 0 := fetch_iff_opcode rfl

/-- Settles O29: only a commit can leave HALTED, and only that of halt does. -/
theorem onlyHaltEntersHalted : Obligations.OnlyHaltEntersHalted := by
  intro s t hr hstep
  constructor
  · intro hhalted
    obtain ⟨e, -, rfl⟩ | ⟨i, r, k, -, -, rfl⟩ | ⟨i, r, e, hf, hp, rfl⟩ := step_ready hr hstep
    · cases hhalted
    · cases hhalted
    · obtain ⟨rfl, -⟩ := eq_halt_of_proposalOf hp ((commit_status_eq_halted_iff hr).mp hhalted)
      exact fetch_halt_iff.mp ⟨r, hf⟩
  · intro h
    obtain ⟨r, hf⟩ := fetch_halt_iff.mpr h
    rw [step_instr hr hf, exec_halt, Host.Outcome.next.injEq] at hstep
    rw [← hstep]

/-! FAULT and STATUS agree. -/

theorem recordsStop_iff_of_ready {s : State} (h : s.status = .ready) :
    RecordsStop s ↔ s.fault = { kind := .none, ip := 0, word := 0 } := by
  rw [RecordsStop, h]

/-- Taking a fault records it (R202). -/
theorem takeFault_recordsStop {k : FaultKind} (hk : k ≠ .none) (s : State) : RecordsStop (takeFault k s) :=
  ⟨hk, rfl, rfl⟩

/-- Settles O39, by what a step from READY can do: a fault taken is recorded; a commit leaves FAULT at (NONE, 0, 0), and
where it halts, IP stays on the halt that was fetched. -/
theorem faultRecordAgreesWithStatus : Obligations.FaultRecordAgreesWithStatus := by
  intro s t hrec hstep
  by_cases hr : s.status = .ready
  · have hnone := (recordsStop_iff_of_ready hr).mp hrec
    obtain ⟨e, -, rfl⟩ | ⟨i, r, k, -, hp, rfl⟩ | ⟨i, r, e, hf, hp, rfl⟩ := step_ready hr hstep
    · exact takeFault_recordsStop (rejectFault_ne_none e) s
    · exact takeFault_recordsStop (proposalOf_error_ne_none hp) s
    · by_cases hh : e.halt = true
      · obtain ⟨rfl, rfl⟩ := eq_halt_of_proposalOf hp hh
        rw [commit_haltEffect]
        exact ⟨hnone, decode_operation hf⟩
      · exact (recordsStop_iff_of_ready ((commit_status_eq_ready_iff hr).mpr hh)).mpr hnone
  · rw [step_stopped hr, Host.Outcome.next.injEq] at hstep
    exact hstep ▸ hrec

/-! The report. -/

/-- The report of a step from READY that commits is a success. -/
theorem report_of_commit {s : State} {i : Instr} {r : List Word} {e : Effect} (hr : s.status = .ready)
    (hf : fetch s = .instr i r) (hp : proposalOf i s = .ok e) :
    report s = .success (successReport Config.opcodeBase i.operation e) :=
  (report_instr hr hf).trans (reportOf_ok hp)

/-- Settles O25: in a stop the step and the report look at STATUS and FAULT alone. -/
theorem stoppedMachineKeepsItsState : Obligations.StoppedMachineKeepsItsState :=
  fun _ => ⟨fun h => ⟨step_stopped (by rw [h]; decide), report_halted h⟩,
    fun h => ⟨step_stopped (by rw [h]; decide), report_faulted h⟩⟩

/-- Settles O26, by STATUS before the step: from READY a failing step reports its record (O27) and a commit reports
success; a stop repeats its report. -/
theorem executeNeverThrows : Obligations.ExecuteNeverThrows := by
  intro s
  have hstep := step_eq_stepState s
  refine ⟨stepState s, hstep, rfl, ?_⟩
  by_cases hr : s.status = .ready
  · refine ⟨fun hfaulted => ?_, fun hok => ?_⟩
    · obtain ⟨k, -, -, hreport⟩ := failedStepIsPrecise s _ hr hstep hfaulted
      exact hreport
    · obtain ⟨e, -, ht⟩ | ⟨i, r, k, -, -, ht⟩ | ⟨i, r, e, hf, hp, -⟩ := step_ready hr hstep
      · exact absurd (by rw [ht]; rfl) hok
      · exact absurd (by rw [ht]; rfl) hok
      · exact ⟨_, report_of_commit hr hf hp⟩
  · rw [step_next.mp (step_stopped hr)]
    refine ⟨report_faulted, fun hok => ⟨_, report_halted ?_⟩⟩
    cases hs : s.status with
    | ready => exact absurd hs hr
    | halted => rfl
    | faulted => exact absurd hs hok

/-- Settles O40: a fault's record is in FAULT, and every halt reports the same. -/
theorem stoppingReportRepeats : Obligations.StoppingReportRepeats := by
  intro s t hr hstep hstop
  refine ⟨step_stopped hstop, ?_⟩
  obtain ⟨e, hf, rfl⟩ | ⟨i, r, k, hf, hp, rfl⟩ | ⟨i, r, e, hf, hp, rfl⟩ := step_ready hr hstep
  · rw [report_faulted rfl, report_rejected hr hf, takeFault_fault]
  · rw [report_faulted rfl, report_instr hr hf, reportOf_error hp, takeFault_fault]
  · have hh : e.halt = true := not_not.mp (mt (commit_status_eq_ready_iff hr).mpr hstop)
    obtain ⟨rfl, rfl⟩ := eq_halt_of_proposalOf hp hh
    rw [report_halted rfl, report_instr hr hf, reportOf_halt]

/-- A run takes its first step, then the others. -/
theorem run_succ {n : Nat} {s t : State} (h : step s = .next t) : core.run (n + 1) s = core.run n t := by
  have hcore : core.step s = .next t := h
  simp only [Host.Core.run, hcore]

/-- Settles O41, by induction on the length of the run. -/
theorem stoppedRunGoesNoFurther : Obligations.StoppedRunGoesNoFurther := by
  intro n s hstop
  have hstep := step_stopped hstop
  induction n with
  | zero => exact ⟨rfl, rfl⟩
  | succ n ih =>
    obtain ⟨hrun, hmany⟩ := ih
    constructor
    · rw [run_succ hstep, hrun]
    · rw [executeMany_succ, step_next.mp hstep, hmany]

/-- Settles O22: what is decoded is what the statement decodes. -/
theorem stepRunsTheDecodedInstruction : Obligations.StepRunsTheDecodedInstruction := by
  intro s i rest hr hdec
  rw [← afterOpcode_eq] at hdec
  exact step_instr hr hdec

/-- Settles O57: the parameterised definitions at `Config.parameters` unfold to the machine's, but for the dispatch, which
is the handlers' by cases on the instruction. -/
theorem referenceParametersGiveTheMachine : Obligations.ReferenceParametersGiveTheMachine := by
  refine ⟨rfl, fun i s => ?_, fun s => ?_, fun _ => rfl, fun n s => ?_, fun calls s => ?_, fun _ _ => rfl⟩
  · rw [execIn_reference]
  · rw [stepIn_reference]
  · rw [executeManyIn, executeIn_reference, executeMany]
  · rw [hostCallsIn, executeIn_reference, hostCalls]

end Sys2Proof.Machine

/-! The proofs of the family of the assembler (30_encoding.md R80 to R94): the order of the errors of Parse, and the listing
of a program. -/

namespace Sys2Proof.Machine

/-! Parse (R82, R93). -/

/-- No line is too long: that error counts lines. -/
theorem parseLine_ne_tooLong (n : Nat) (l : Text) : parseLine n l ≠ .error .tooLong := by
  rw [parseLine]
  cases matchLine l with
  | none => nofun
  | some m =>
    obtain ⟨token, comment⟩ := m
    simp only [classify]
    cases parseInteger token with
    | some v => nofun
    | none => cases lookupMnemonic token <;> nofun

/-- What Parse does at its first line: stop at its error, or put its node in front of the others'. -/
theorem parseLines_cons (k : Nat) (l : Text) (ls : List Text) :
    (∃ e, parseLine k l = .error e ∧ parseLines k (l :: ls) = .error e) ∨
    (∃ node, parseLine k l = .ok node ∧ parseLines k (l :: ls) = (parseLines (k + 1) ls).map (node :: ·)) := by
  rw [parseLines]
  cases parseLine k l with
  | error e => exact .inl ⟨e, rfl, rfl⟩
  | ok node =>
    refine .inr ⟨node, rfl, ?_⟩
    cases parseLines (k + 1) ls <;> rfl

/-- The lines `ls`, the first of them number `k`, parse to `nodes`, one for each, in order. -/
def ParsesTo (k : Nat) (ls : List Text) (nodes : List ParseNode) : Prop :=
  nodes.length = ls.length ∧
    ∀ (n : Nat) (l : Text), ls[n]? = some l → ∃ node, nodes[n]? = some node ∧ parseLine (k + n) l = .ok node

/-- Among the lines `ls`, the first of them number `k`, the first that does not parse answers `e`. -/
def FirstBadLine (k : Nat) (ls : List Text) (e : AsmError) : Prop :=
  ∃ (n : Nat) (l : Text), ls[n]? = some l ∧ parseLine (k + n) l = .error e ∧
    ∀ (m : Nat) (l' : Text), m < n → ls[m]? = some l' → ∃ node, parseLine (k + m) l' = .ok node

theorem parsesTo_cons {k : Nat} {l : Text} {ls : List Text} {node : ParseNode} {nodes : List ParseNode}
    (h : parseLine k l = .ok node) (hs : ParsesTo (k + 1) ls nodes) : ParsesTo k (l :: ls) (node :: nodes) := by
  obtain ⟨hlen, hall⟩ := hs
  refine ⟨by rw [List.length_cons, List.length_cons, hlen], fun n l' hn => ?_⟩
  cases n with
  | zero => cases hn; exact ⟨node, rfl, h⟩
  | succ n =>
    obtain ⟨node', hnode', hparse⟩ := hall n l' hn
    exact ⟨node', hnode', by rwa [show k + (n + 1) = k + 1 + n by omega]⟩

theorem firstBadLine_head {k : Nat} {l : Text} {ls : List Text} {e : AsmError} (h : parseLine k l = .error e) :
    FirstBadLine k (l :: ls) e :=
  ⟨0, l, rfl, h, fun _ _ hm => absurd hm (Nat.not_lt_zero _)⟩

theorem firstBadLine_cons {k : Nat} {l : Text} {ls : List Text} {node : ParseNode} {e : AsmError}
    (h : parseLine k l = .ok node) (hs : FirstBadLine (k + 1) ls e) : FirstBadLine k (l :: ls) e := by
  obtain ⟨n, l', hn, hbad, hbefore⟩ := hs
  refine ⟨n + 1, l', hn, by rwa [show k + (n + 1) = k + 1 + n by omega], fun m l'' hm hl => ?_⟩
  cases m with
  | zero => cases hl; exact ⟨node, h⟩
  | succ m =>
    rw [show k + (m + 1) = k + 1 + m by omega]
    exact hbefore m l'' (by omega) hl

/-- Parse of some lines gives their nodes, or the error of the first bad one. -/
theorem parseLines_spec (k : Nat) (ls : List Text) :
    (∃ nodes, parseLines k ls = .ok nodes ∧ ParsesTo k ls nodes) ∨
    (∃ e, parseLines k ls = .error e ∧ FirstBadLine k ls e) := by
  induction ls generalizing k with
  | nil => exact .inl ⟨[], rfl, rfl, nofun⟩
  | cons l ls ih =>
    obtain ⟨e, hl, he⟩ | ⟨node, hl, hmap⟩ := parseLines_cons k l ls
    · exact .inr ⟨e, he, firstBadLine_head hl⟩
    · obtain ⟨nodes, hok, hs⟩ | ⟨e, herr, hs⟩ := ih (k + 1)
      · exact .inl ⟨node :: nodes, by rw [hmap, hok]; rfl, parsesTo_cons hl hs⟩
      · exact .inr ⟨e, by rw [hmap, herr]; rfl, firstBadLine_cons hl hs⟩

theorem ParsesTo.unique {k : Nat} {ls : List Text} {nodes nodes' : List ParseNode} (h : ParsesTo k ls nodes)
    (h' : ParsesTo k ls nodes') : nodes = nodes' := by
  obtain ⟨hlen, hall⟩ := h
  obtain ⟨hlen', hall'⟩ := h'
  refine List.ext_getElem? fun n => ?_
  cases hn : ls[n]? with
  | none =>
    have := List.getElem?_eq_none_iff.mp hn
    rw [List.getElem?_eq_none (by omega), List.getElem?_eq_none (by omega)]
  | some l =>
    obtain ⟨node, hnode, hl⟩ := hall n l hn
    obtain ⟨node', hnode', hl'⟩ := hall' n l hn
    rw [hnode, hnode', Except.ok.inj (hl.symm.trans hl')]

theorem FirstBadLine.unique {k : Nat} {ls : List Text} {e e' : AsmError} (h : FirstBadLine k ls e)
    (h' : FirstBadLine k ls e') : e = e' := by
  obtain ⟨n, l, hn, hbad, hbefore⟩ := h
  obtain ⟨n', l', hn', hbad', hbefore'⟩ := h'
  obtain hlt | rfl | hlt := Nat.lt_trichotomy n n'
  · obtain ⟨node, hok⟩ := hbefore' n l hlt hn
    cases hok.symm.trans hbad
  · cases hn.symm.trans hn'
    exact Except.error.inj (hbad.symm.trans hbad')
  · obtain ⟨node, hok⟩ := hbefore n' l' hlt hn'
    cases hok.symm.trans hbad'

/-- Where some line is bad, not every line parses. -/
theorem FirstBadLine.not_forall_ok {k : Nat} {ls : List Text} {e : AsmError} (h : FirstBadLine k ls e) :
    ¬ ∀ (n : Nat) (l : Text), ls[n]? = some l → ∃ node, parseLine (k + n) l = .ok node := by
  obtain ⟨n, l, hn, hbad, -⟩ := h
  intro hall
  obtain ⟨node, hok⟩ := hall n l hn
  cases hok.symm.trans hbad

theorem ParsesTo.forall_ok {k : Nat} {ls : List Text} {nodes : List ParseNode} (h : ParsesTo k ls nodes) :
    ∀ (n : Nat) (l : Text), ls[n]? = some l → ∃ node, parseLine (k + n) l = .ok node := by
  obtain ⟨-, hall⟩ := h
  intro n l hn
  obtain ⟨node, -, hl⟩ := hall n l hn
  exact ⟨node, hl⟩

theorem parseLines_eq_ok {k : Nat} {ls : List Text} {nodes : List ParseNode} :
    parseLines k ls = .ok nodes ↔ ParsesTo k ls nodes := by
  obtain ⟨nodes', hok, hs⟩ | ⟨e, herr, hs⟩ := parseLines_spec k ls
  · rw [hok, Except.ok.injEq]
    exact ⟨fun h => h ▸ hs, fun h => hs.unique h⟩
  · rw [herr]
    exact ⟨nofun, fun h => absurd h.forall_ok hs.not_forall_ok⟩

theorem parseLines_eq_error {k : Nat} {ls : List Text} {e : AsmError} :
    parseLines k ls = .error e ↔ FirstBadLine k ls e := by
  obtain ⟨nodes, hok, hs⟩ | ⟨e', herr, hs⟩ := parseLines_spec k ls
  · rw [hok]
    exact ⟨nofun, fun h => absurd hs.forall_ok h.not_forall_ok⟩
  · rw [herr, Except.error.injEq]
    exact ⟨fun h => h ▸ hs, fun h => hs.unique h⟩

theorem parseLines_ok_iff {k : Nat} {ls : List Text} : (∃ nodes, parseLines k ls = .ok nodes) ↔
    ∀ (n : Nat) (l : Text), ls[n]? = some l → ∃ node, parseLine (k + n) l = .ok node := by
  obtain ⟨nodes, hok, hs⟩ | ⟨e, herr, hs⟩ := parseLines_spec k ls
  · exact iff_of_true ⟨nodes, hok⟩ hs.forall_ok
  · exact iff_of_false (by rw [herr]; nofun) hs.not_forall_ok

theorem parse_of_length_le {text : Text} (h : (linesOf text).length ≤ 256) : parse text = parseLines 0 (linesOf text) :=
  if_neg (Nat.not_lt.mpr h)

/-- Settles O54: the lines are counted first; then Parse goes through them in order. -/
theorem parseReportsTheFirstBadLine : Obligations.ParseReportsTheFirstBadLine := by
  refine fun text => ⟨⟨fun hlong => if_pos hlong, fun h => ?_⟩, fun hle => ?_⟩
  · by_contra hle
    rw [parse_of_length_le (Nat.not_lt.mp hle)] at h
    obtain ⟨n, l, -, hbad, -⟩ := parseLines_eq_error.mp h
    exact parseLine_ne_tooLong _ _ hbad
  · rw [parse_of_length_le hle]
    have hok := parseLines_ok_iff (k := 0) (ls := linesOf text)
    have hnodes (nodes) := parseLines_eq_ok (k := 0) (ls := linesOf text) (nodes := nodes)
    have herror (e) := parseLines_eq_error (k := 0) (ls := linesOf text) (e := e)
    simp only [ParsesTo, FirstBadLine, Nat.zero_add] at hok hnodes herror
    exact ⟨hok, hnodes, herror⟩

/-! Decimal numbers (R84). -/

/-- The value that the assembler reads from a digit's character. -/
theorem digitChar_value {d : Nat} (h : d < 10) : (digitChar d).toNat - '0'.toNat = d := by
  interval_cases d <;> rfl

theorem isDigit_digitChar {d : Nat} (h : d < 10) : isDigit (digitChar d) = true := by
  interval_cases d <;> rfl

theorem digitsValue_nil (acc : Nat) : digitsValue acc [] = acc := by rw [digitsValue.eq_def]

theorem digitsValue_cons (acc : Nat) (c : Char) (cs : Text) :
    digitsValue acc (c :: cs) = digitsValue (10 * acc + (c.toNat - '0'.toNat)) cs := by
  rw [digitsValue.eq_def]

theorem digitsValue_digitChar {d : Nat} (h : d < 10) (acc : Nat) (cs : Text) :
    digitsValue acc (digitChar d :: cs) = digitsValue (10 * acc + d) cs := by
  rw [digitsValue_cons, digitChar_value h]

theorem natText_ne_nil (n : Nat) : natText n ≠ [] := by
  rw [natText]
  split_ifs <;> nofun

theorem natText_isDigit {n : Nat} (h : n < 1000) : ∀ c ∈ natText n, isDigit c = true := by
  rw [natText]
  have hmod (k : Nat) : isDigit (digitChar (k % 10)) = true := isDigit_digitChar (Nat.mod_lt k (by omega))
  split_ifs <;> simp only [List.forall_mem_cons]
  · exact ⟨isDigit_digitChar ‹n < 10›, List.forall_mem_nil _⟩
  · exact ⟨isDigit_digitChar (d := n / 10) (by omega), hmod n, List.forall_mem_nil _⟩
  · exact ⟨isDigit_digitChar (d := n / 100) (by omega), hmod (n / 10), hmod n, List.forall_mem_nil _⟩

theorem digitsValue_natText {n : Nat} (h : n < 1000) : digitsValue 0 (natText n) = n := by
  rw [natText]
  have hmod (k : Nat) : k % 10 < 10 := Nat.mod_lt k (by omega)
  split_ifs with h10 h100
  · rw [digitsValue_digitChar h10, digitsValue_nil]; omega
  · rw [digitsValue_digitChar (d := n / 10) (by omega), digitsValue_digitChar (hmod n), digitsValue_nil]; omega
  · rw [digitsValue_digitChar (d := n / 100) (by omega), digitsValue_digitChar (hmod _), digitsValue_digitChar (hmod n),
      digitsValue_nil]; omega

theorem parseDigits_natText {n : Nat} (h : n < 1000) : parseDigits (natText n) = some n := by
  have hne : (natText n).isEmpty = false := by simpa using natText_ne_nil n
  rw [parseDigits, hne, List.all_eq_true.mpr (natText_isDigit h), digitsValue_natText h]
  rfl

/-- Digits alone are an integer: the sign is no digit. -/
theorem parseInteger_of_parseDigits {t : Text} {n : Nat} (h : parseDigits t = some n) : parseInteger t = some (n : Int) := by
  rw [parseInteger.eq_def]
  split
  · simp [parseDigits, isDigit] at h
  · rw [h]; rfl

/-- A Word's literal reads as its value. -/
theorem parseInteger_wordText (w : Word) : parseInteger (wordText w) = some w.toInt := by
  have hw := (inWord_iff _).mp (Word.inWord_toInt w)
  have hdigits : parseDigits (natText w.toInt.natAbs) = some w.toInt.natAbs := parseDigits_natText (by omega)
  rw [wordText]
  split_ifs with hneg
  · rw [parseInteger, hdigits]
    change some (-(w.toInt.natAbs : Int)) = some w.toInt
    rw [Option.some.injEq]; omega
  · rw [parseInteger_of_parseDigits hdigits, Option.some.injEq]; omega

/-! One line of a listing. -/

theorem isTokenChar_of_isDigit {c : Char} (h : isDigit c = true) : isTokenChar c = true := by
  simp [isTokenChar, h]

theorem not_isStripped_of_isTokenChar {c : Char} (h : isTokenChar c = true) : ¬ isStripped c = true := by
  intro hs
  simp only [isStripped, Bool.or_eq_true, beq_iff_eq] at hs
  obtain (((rfl | rfl) | rfl) | rfl) | rfl := hs <;> exact Bool.false_ne_true h

theorem ne_newline_of_isTokenChar {c : Char} (h : isTokenChar c = true) : c ≠ '\n' := by
  rintro rfl
  exact absurd h (by decide)

theorem wordText_isTokenChar (w : Word) : ∀ c ∈ wordText w, isTokenChar c = true := by
  have hw := (inWord_iff _).mp (Word.inWord_toInt w)
  have hdigits : ∀ c ∈ natText w.toInt.natAbs, isTokenChar c = true :=
    fun c hc => isTokenChar_of_isDigit (natText_isDigit (by omega) c hc)
  rw [wordText]
  split_ifs with hneg
  · exact List.forall_mem_cons.mpr ⟨rfl, hdigits⟩
  · exact hdigits

theorem wordText_ne_nil (w : Word) : wordText w ≠ [] := by
  rw [wordText]
  split_ifs
  · nofun
  · exact natText_ne_nil _

theorem mnemonic_isTokenChar (op : Operation) : ∀ c ∈ mnemonic op, isTokenChar c = true :=
  List.all_eq_true.mp (by cases op <;> rfl)

theorem mnemonic_ne_nil (op : Operation) : mnemonic op ≠ [] := by
  cases op <;> nofun

/-- No mnemonic is an integer: it starts with a letter. -/
theorem parseInteger_mnemonic (op : Operation) : parseInteger (mnemonic op) = none := by
  cases op <;> rfl

/-- A text of token characters alone is stripped already (R81). -/
theorem strip_of_isTokenChar {t : Text} (h : ∀ c ∈ t, isTokenChar c = true) : strip t = t := by
  have hdrop {u : Text} (hu : ∀ c ∈ u, isTokenChar c = true) : u.dropWhile isStripped = u :=
    List.dropWhile_eq_self_iff.mpr fun hl => not_isStripped_of_isTokenChar (hu _ (List.getElem_mem hl))
  rw [strip, hdrop h, hdrop (fun c hc => h c (List.mem_reverse.mp hc)), List.reverse_reverse]

/-- Such a text is one token with no comment (R83). -/
theorem matchLine_of_isTokenChar {t : Text} (hne : t ≠ []) (h : ∀ c ∈ t, isTokenChar c = true) :
    matchLine t = some (t, none) := by
  have htake : t.takeWhile isTokenChar = t := List.takeWhile_eq_self_iff.mpr h
  have hdrop : t.dropWhile isTokenChar = [] := List.dropWhile_eq_nil_iff.mpr h
  have hemp : t.isEmpty = false := by simpa using hne
  simp [matchLine, htake, hdrop, hemp]

/-- A line of source and the node kind that it stands for. -/
structure SourceLine where
  /-- The line's text. -/
  text : Text
  /-- What it parses to. -/
  kind : NodeKind

/-- The line is one token that is classified as its kind, and Generate accepts it. -/
structure SourceLine.Legible (l : SourceLine) : Prop where
  ne_nil : l.text ≠ []
  token : ∀ c ∈ l.text, isTokenChar c = true
  classified : ∀ n, classify n l.text = .ok l.kind
  inRange : ∀ v, l.kind = .data v → inWord v

/-- The node of a line with no comment (R86). -/
def SourceLine.node (l : SourceLine) : ParseNode := { sourceText := l.text, kind := l.kind, comment := none }

/-- The Word of a node of this kind (R88). -/
def NodeKind.word (base : Int) : NodeKind → Word
  | .data v => Word.ofValue v
  | .operation op => Word.ofValue (op.opcodeAt base)

/-- The Word a line assembles to. -/
def SourceLine.word (base : Int) (l : SourceLine) : Word := l.kind.word base

/-- The line's text as it stands in a program, ended by a line feed. -/
def SourceLine.ended (l : SourceLine) : Text := l.text ++ ['\n']

/-- The lines of an instruction (R85). -/
def sourceLines (i : Instr) : List SourceLine :=
  { text := mnemonic i.operation, kind := .operation i.operation } ::
    i.immediates.map fun imm => { text := wordText imm, kind := .data imm.toInt }

theorem listingOf_eq (i : Instr) : listingOf i = (sourceLines i).flatMap SourceLine.ended := by
  cases i with
  | push imm => simp [listingOf, sourceLines, SourceLine.ended, Instr.immediates, Instr.operation]
  | _ => rfl

theorem encodeAt_eq_words (base : Int) (i : Instr) : encodeAt base i = (sourceLines i).map (SourceLine.word base) := by
  cases i with
  | push imm =>
    rw [encodeAt_eq, ← Word.ofValue_toInt imm]
    simp only [Instr.immediates, sourceLines, List.map_cons, List.map_nil, SourceLine.word, NodeKind.word,
      Word.ofValue_toInt]
  | _ => rfl

theorem mnemonic_legible (op : Operation) : SourceLine.Legible { text := mnemonic op, kind := .operation op } where
  ne_nil := mnemonic_ne_nil op
  token := mnemonic_isTokenChar op
  classified n := by simp only [classify, parseInteger_mnemonic, lookupMnemonic_mnemonic]
  inRange := nofun

theorem wordText_legible (w : Word) : SourceLine.Legible { text := wordText w, kind := .data w.toInt } where
  ne_nil := wordText_ne_nil w
  token := wordText_isTokenChar w
  classified n := by simp only [classify, parseInteger_wordText]
  inRange v hv := by cases hv; exact Word.inWord_toInt w

theorem sourceLines_legible (i : Instr) : ∀ l ∈ sourceLines i, l.Legible := by
  rw [sourceLines, List.forall_mem_cons, List.forall_mem_map]
  exact ⟨mnemonic_legible _, fun imm _ => wordText_legible imm⟩

/-! Assembling legible lines: split, then parse, then generate. -/

/-- The text up to the first line feed is the first line (R81). -/
theorem splitLines_append_newline {t : Text} (h : ∀ c ∈ t, c ≠ '\n') (rest : Text) :
    splitLines (t ++ '\n' :: rest) = t :: splitLines rest := by
  induction t with
  | nil => rfl
  | cons c t ih =>
    obtain ⟨hc, ht⟩ := List.forall_mem_cons.mp h
    rw [List.cons_append, splitLines, if_neg (by simpa using hc), ih ht]

theorem linesOf_cons {l : SourceLine} (hl : l.Legible) (rest : Text) :
    linesOf (l.ended ++ rest) = l.text :: linesOf rest := by
  have hkeep : (!l.text.isEmpty) = true := by simpa using hl.ne_nil
  rw [linesOf, SourceLine.ended, List.append_assoc, List.singleton_append,
    splitLines_append_newline (fun c hc => ne_newline_of_isTokenChar (hl.token c hc)), List.map_cons,
    strip_of_isTokenChar hl.token, List.filter_cons, if_pos hkeep, linesOf]

theorem linesOf_flatMap_ended {ls : List SourceLine} (h : ∀ l ∈ ls, l.Legible) :
    linesOf (ls.flatMap SourceLine.ended) = ls.map SourceLine.text := by
  induction ls with
  | nil => rfl
  | cons l ls ih =>
    obtain ⟨hl, hls⟩ := List.forall_mem_cons.mp h
    rw [List.flatMap_cons, linesOf_cons hl, ih hls, List.map_cons]

theorem parseLine_of_legible {l : SourceLine} (hl : l.Legible) (n : Nat) : parseLine n l.text = .ok l.node := by
  simp only [parseLine, matchLine_of_isTokenChar hl.ne_nil hl.token, hl.classified]
  rfl

theorem parseLines_of_legible {ls : List SourceLine} (h : ∀ l ∈ ls, l.Legible) (k : Nat) :
    parseLines k (ls.map SourceLine.text) = .ok (ls.map SourceLine.node) := by
  induction ls generalizing k with
  | nil => rfl
  | cons l ls ih =>
    obtain ⟨hl, hls⟩ := List.forall_mem_cons.mp h
    simp only [List.map_cons, parseLines, parseLine_of_legible hl, ih hls]

/-- A node emits the Word of its kind and no other. -/
theorem ParseNode.Emits.eq_word {base : Int} {node : ParseNode} {w : Word} (h : node.Emits base w) :
    w = node.kind.word base := by
  obtain ⟨v, hk, -, rfl⟩ | ⟨op, hk, rfl⟩ := h <;> rw [hk] <;> rfl

theorem generateFrom_of_legible (base : Int) {ls : List SourceLine} (h : ∀ l ∈ ls, l.Legible) (i : Nat) :
    generateFrom base i (ls.map SourceLine.node) = .ok (ls.map (SourceLine.word base)) := by
  induction ls generalizing i with
  | nil => rfl
  | cons l ls ih =>
    obtain ⟨hl, hls⟩ := List.forall_mem_cons.mp h
    obtain ⟨⟨v, hv, hbad⟩, -⟩ | ⟨-, w, hw, hmap⟩ := generateFrom_cons base i l.node (ls.map SourceLine.node)
    · exact absurd (hl.inRange v hv) hbad
    · rw [List.map_cons, hmap, ih hls, hw.eq_word]
      rfl

theorem assembleAt_of_legible (base : Int) {ls : List SourceLine} (h : ∀ l ∈ ls, l.Legible) (hlen : ls.length ≤ 256) :
    assembleAt base (ls.flatMap SourceLine.ended) = .ok (ls.map (SourceLine.word base)) := by
  have hparse : parse (ls.flatMap SourceLine.ended) = .ok (ls.map SourceLine.node) := by
    rw [parse_of_length_le (by rwa [linesOf_flatMap_ended h, List.length_map]), linesOf_flatMap_ended h,
      parseLines_of_legible h]
  rw [assembleAt, hparse]
  exact generateFrom_of_legible base h 0

/-- Under every base, assembling the listing of a program that fits in Memory gives its encodings. -/
theorem assembleAt_listing (base : Int) (program : List Instr)
    (hlen : (program.flatMap (encodeAt base)).length ≤ 256) :
    assembleAt base (program.flatMap listingOf) = .ok (program.flatMap (encodeAt base)) := by
  have htext : program.flatMap listingOf = (program.flatMap sourceLines).flatMap SourceLine.ended := by
    rw [List.flatMap_assoc, List.flatMap_congr fun i _ => listingOf_eq i]
  have hwords : program.flatMap (encodeAt base) = (program.flatMap sourceLines).map (SourceLine.word base) := by
    rw [List.map_flatMap, List.flatMap_congr fun i _ => encodeAt_eq_words base i]
  have hlegible : ∀ l ∈ program.flatMap sourceLines, l.Legible := by
    intro l hl
    obtain ⟨i, -, hi⟩ := List.mem_flatMap.mp hl
    exact sourceLines_legible i l hi
  rw [htext, hwords]
  rw [hwords, List.length_map] at hlen
  exact assembleAt_of_legible base hlegible hlen

/-- Settles O55, at the hardware's OPCODE_BASE: each line of the listing is legible, and its Word is the encoding's. -/
theorem assembledListingIsTheEncoding : Obligations.AssembledListingIsTheEncoding :=
  fun program => assembleAt_listing Config.opcodeBase program

/-! The whole machine under either base (R9). -/

/-- The report of a step from READY that decodes an instruction under given parameters. -/
theorem reportIn_instr {p : Parameters} {s : State} {i : Instr} {r : List Word} (hr : s.status = .ready)
    (hf : fetchIn p s = .instr i r) : reportIn p s = reportOfIn p i s := by
  simp only [reportIn, hr, hf]

theorem stepIn_instr {p : Parameters} {s : State} {i : Instr} {r : List Word} (hr : s.status = .ready)
    (hf : fetchIn p s = .instr i r) : stepIn p s = execIn p i s := by
  simp only [stepIn, cycle, hr, hf, runDecoded]

theorem stepIn_rejected {p : Parameters} {s : State} {e : DecodeError} (hr : s.status = .ready)
    (hf : fetchIn p s = .rejected e) : stepIn p s = .next (takeFault (rejectFault e) s) := by
  simp only [stepIn, cycle, hr, hf, runDecoded]

/-- A success report of an instruction carries its name, and its opcode under the given base. -/
theorem reportOfIn_success {p : Parameters} {i : Instr} {s : State} {r : SuccessReport}
    (h : reportOfIn p i s = .success r) : r.name = i.operation ∧ r.opcode = p.opcodeBase + i.operation.ordinal := by
  rw [reportOfIn] at h
  cases hp : proposalIn p i s with
  | error k => rw [hp] at h; cases h
  | ok e => rw [hp] at h; cases h; exact ⟨rfl, rfl⟩

/-- A Word that is no operation's base plus position is rejected under that base (R64). -/
theorem fetchIn_illegalWord {p : Parameters} {s : State}
    (h : ∀ op : Operation, p.opcodeBase + op.ordinal ≠ (s.cell s.ip.val).toInt) :
    fetchIn p s = .rejected .invalidOpcode := by
  have hnone : decodeOperationAt p.opcodeBase s.fetchedWord = none := by
    rw [Option.eq_none_iff_forall_ne_some]
    exact fun op hop => h op (decodeOperationAt_eq_some.mp hop).symm
  simp only [fetchIn, decodeAt, hnone]

/-- Settles O58: the laws of decoding, the step, its report and the assembler hold under every base. -/
theorem eitherBaseReachesTheWholeMachine : Obligations.EitherBaseReachesTheWholeMachine := by
  intro p _
  refine ⟨fun s i rest hr hdec => ?_, fun s hr h => ?_, assembleAt_listing p.opcodeBase⟩
  · rw [← afterOpcode_eq] at hdec
    obtain ⟨hop, -⟩ := decodeAt_eq_instr.mp hdec
    have hword := decodeOperationAt_eq_some.mp hop
    refine ⟨hword, stepIn_instr hr hdec, fun r hrep => ?_⟩
    rw [reportIn_instr hr hdec] at hrep
    obtain ⟨hname, hopcode⟩ := reportOfIn_success hrep
    exact ⟨hname, hopcode.trans hword.symm⟩
  · exact ⟨_, stepIn_rejected hr (fetchIn_illegalWord h), rfl⟩

end Sys2Proof.Machine

/-! The proofs of the family of divide (43_arithmetic.md R153 to R155): the laws of quotient and remainder in both REM_MODEs,
and what divide does. -/

namespace Sys2Proof.Machine

/-- The floored remainder is the library's; it keeps the dividend where the divisor is 0 as well. -/
theorem remainder_floored (d e : Int) : remainder .floored d e = d.fmod e := by
  rw [remainder]
  split_ifs with he
  · rw [he, Int.fmod_zero]
  · exact (Int.fmod_def d e).symm

theorem remainder_truncated (d e : Int) : remainder .truncated d e = d.tmod e := by
  rw [remainder]
  split_ifs with he
  · rw [he, Int.tmod_zero]
  · exact (Int.tmod_def d e).symm

theorem remainder_zero (mode : RemMode) (d : Int) : remainder mode d 0 = d := if_pos rfl

theorem quotient_zero (d : Int) : quotient d 0 = d := if_pos rfl

theorem quotient_of_ne_zero (d : Int) {e : Int} (he : e ≠ 0) : quotient d e = d.fdiv e := if_neg he

/-- The floored remainder lies between 0 and the divisor, on the divisor's side. -/
theorem fmod_between (d : Int) {e : Int} (he : e ≠ 0) :
    (0 < e ∧ 0 ≤ d.fmod e ∧ d.fmod e < e) ∨ (e < 0 ∧ e < d.fmod e ∧ d.fmod e ≤ 0) := by
  obtain hneg | hpos := Int.lt_or_gt_of_ne he
  · have hge := Int.fmod_nonneg_of_pos (-d) (Int.neg_pos_of_neg hneg)
    have hlt := Int.fmod_lt_of_pos (-d) (Int.neg_pos_of_neg hneg)
    rw [Int.neg_fmod_neg] at hge hlt
    exact .inr ⟨hneg, by omega, by omega⟩
  · exact .inl ⟨hpos, Int.fmod_nonneg_of_pos d hpos, Int.fmod_lt_of_pos d hpos⟩

theorem remainder_floored_sign (d : Int) {e : Int} (he : e ≠ 0) :
    remainder .floored d e = 0 ∨ (remainder .floored d e).sign = e.sign := by
  rw [remainder_floored]
  obtain ⟨hpos, hge, -⟩ | ⟨hneg, -, hle⟩ := fmod_between d he
  · refine hge.eq_or_lt.imp Eq.symm fun h => ?_
    rw [Int.sign_eq_one_of_pos h, Int.sign_eq_one_of_pos hpos]
  · refine hle.eq_or_lt.imp id fun h => ?_
    rw [Int.sign_eq_neg_one_of_neg h, Int.sign_eq_neg_one_of_neg hneg]

theorem remainder_truncated_sign (d e : Int) :
    remainder .truncated d e = 0 ∨ (remainder .truncated d e).sign = d.sign := by
  rw [remainder_truncated, Int.sign_tmod]
  split_ifs with hdvd
  · exact .inl (Int.tmod_eq_zero_of_dvd hdvd)
  · exact .inr rfl

/-- In both modes the remainder is smaller than the divisor. -/
theorem remainder_natAbs_lt (mode : RemMode) (d : Int) {e : Int} (he : e ≠ 0) :
    (remainder mode d e).natAbs < e.natAbs := by
  cases mode with
  | floored =>
    rw [remainder_floored]
    have hbetween := fmod_between d he
    omega
  | truncated =>
    rw [remainder_truncated, Int.natAbs_tmod]
    exact Nat.mod_lt _ (Int.natAbs_pos.mpr he)

/-- The quotient is the greatest integer whose multiple of the divisor stays on the dividend's side. -/
theorem quotient_bounds (d : Int) {e : Int} (he : e ≠ 0) :
    quotient d e * e.natAbs ≤ d * e.sign ∧ d * e.sign < (quotient d e + 1) * e.natAbs := by
  have hd := Int.fdiv_mul_add_fmod d e
  rw [quotient_of_ne_zero d he]
  obtain ⟨hpos, hge, hlt⟩ | ⟨hneg, hlt, hle⟩ := fmod_between d he
  · rw [Int.sign_eq_one_of_pos hpos, Int.natAbs_of_nonneg hpos.le]
    constructor <;> linarith
  · rw [Int.sign_eq_neg_one_of_neg hneg, Int.ofNat_natAbs_of_nonpos hneg.le]
    constructor <;> linarith

/-- The remainder of two Words is a Word. -/
theorem remainder_inWord (mode : RemMode) {d e : Int} (hd : inWord d) (he : inWord e) : inWord (remainder mode d e) := by
  by_cases h0 : e = 0
  · rwa [h0, remainder_zero]
  · have hlt := remainder_natAbs_lt mode d h0
    rw [inWord_iff] at he ⊢
    omega

/-- The quotient of two Words is a Word but for the one that is 128. -/
theorem quotient_inWord_iff {d e : Int} (hd : inWord d) (he : inWord e) :
    inWord (quotient d e) ↔ ¬ (d = -128 ∧ e = -1) := by
  constructor
  · rintro hq ⟨rfl, rfl⟩
    exact absurd hq (by decide)
  · intro hne
    by_cases h0 : e = 0
    · rwa [h0, quotient_zero]
    · obtain ⟨hle, hlt⟩ := quotient_bounds d h0
      have hpos : (1 : Int) ≤ e.natAbs := by omega
      rw [inWord_iff] at hd ⊢
      have hside : -128 ≤ d * e.sign ∧ (d * e.sign < 128 ∨ d = -128 ∧ e < 0) := by
        obtain h | h := Int.lt_or_gt_of_ne h0
        · rw [Int.sign_eq_neg_one_of_neg h]; omega
        · rw [Int.sign_eq_one_of_pos h]; omega
      constructor
      · by_contra hlow
        have : (quotient d e + 1) * e.natAbs ≤ quotient d e + 1 := by nlinarith
        omega
      · by_contra hhigh
        have : 128 * (e.natAbs : Int) ≤ quotient d e * e.natAbs := by nlinarith
        obtain ⟨-, hlt' | ⟨rfl, hneg⟩⟩ := hside
        · omega
        · rw [Int.sign_eq_neg_one_of_neg hneg] at hle
          omega

/-- Settles O11: the laws above, for all integers and then for Words. -/
theorem divideObeysTheRemainderLaws : Obligations.DivideObeysTheRemainderLaws := by
  refine ⟨fun d e he => ?_, fun d mode => ⟨quotient_zero d, remainder_zero mode d⟩,
    fun d e hd he => ⟨fun mode => remainder_inWord mode hd he, quotient_inWord_iff hd he⟩⟩
  have hdiv : d = e * quotient d e + remainder .floored d e := by
    rw [quotient_of_ne_zero d he, remainder_floored, Int.mul_fdiv_add_fmod]
  have hdvd : e ∣ d - remainder .truncated d e := by
    rw [remainder_truncated]
    exact Int.dvd_self_sub_tmod
  exact ⟨hdiv, remainder_floored_sign d he, remainder_natAbs_lt .floored d he, remainder_truncated_sign d e,
    remainder_natAbs_lt .truncated d he, hdvd, quotient_bounds d he⟩

/-- Settles O12: where they differ, it is by the divisor. -/
theorem remainderModesAgreeWhereSafe : Obligations.RemainderModesAgreeWhereSafe := by
  intro d e
  rw [remainder_floored, remainder_truncated, Int.fmod_eq_tmod]
  by_cases hdvd : e ∣ d
  · simp [hdvd]
  · rw [if_neg hdvd]
    simp only [hdvd, false_or]
    split_ifs <;> omega

/-! divide (R153). -/

/-- What divide pushes under a given REM_MODE: the remainder, then the quotient on top. -/
def divideResults (mode : RemMode) (s : State) : List Int := [remainder mode s.top s.second, quotient s.top s.second]

theorem handlerIn_divide (p : Parameters) (s : State) :
    handlerIn p .divide s = .ok (Effect.replace 2 (divideResults p.remMode s)) := rfl

theorem divideResults_of_zero (mode : RemMode) {s : State} (h0 : s.second = 0) :
    divideResults mode s = [s.top, s.top] := by
  rw [divideResults, h0, remainder_zero, quotient_zero]

/-- Its results are Words but where the quotient is 128. -/
theorem divideResults_inWord_iff (mode : RemMode) (s : State) :
    (∀ v ∈ divideResults mode s, inWord v) ↔ ¬ (s.top = -128 ∧ s.second = -1) := by
  rw [divideResults, List.forall_mem_cons, List.forall_mem_singleton, quotient_inWord_iff (top_inWord s) (second_inWord s)]
  exact and_iff_right (remainder_inWord mode (top_inWord s) (second_inWord s))

/-- At the hardware's parameters divide completes with its two results where they are Words. -/
theorem divide_completes {s : State} (hsc : 2 ≤ s.sc.val) (hne : ¬ (s.top = -128 ∧ s.second = -1))
    (hip : s.ip.val < 255) : Completes .divide 2 (divideResults .floored s) 1 s :=
  completes_of_replace (handlerIn_divide Config.parameters s) hsc ((divideResults_inWord_iff .floored s).mpr hne) le_rfl hip

/-- Settles O10: divide proposes its two results, of which only a quotient of 128 is no Word. -/
theorem dividePushesRemainderAndQuotient : Obligations.DividePushesRemainderAndQuotient := by
  refine ⟨rfl, fun s hsc h0 hip => ?_, fun s hsc h0 hne hip => ?_, fun s => ?_⟩
  · have h := divide_completes hsc (by omega) hip
    rwa [divideResults_of_zero _ h0] at h
  · have h := divide_completes hsc hne hip
    rwa [divideResults, quotient_of_ne_zero _ h0, remainder_floored, Int.fmod_def] at h
  · exact failsOn_resultFault (handlerIn_divide Config.parameters s) le_rfl (divideResults_inWord_iff .floored s)

/-- Under every parameter divide completes with the remainder of REM_MODE and the quotient, where they are Words. -/
theorem execIn_divide_completes (p : Parameters) {s : State} (hsc : 2 ≤ s.sc.val)
    (hne : ¬ (s.top = -128 ∧ s.second = -1)) (hip : s.ip.val < 255) :
    ∃ t, execIn p .divide s = .next t ∧ SameMemory s t ∧
      Moved 2 (divideResults p.remMode s) 1 s t := by
  have hv := validate_replace_ok (pops := 2) ((divideResults_inWord_iff p.remMode s).mpr hne) le_rfl hip
  have hok : proposalIn p .divide s = .ok _ := proposalIn_ok.mpr ⟨hsc, handlerIn_divide p s, hv⟩
  exact ⟨_, by rw [execIn_eq, hok]; rfl, fun a => by rw [commit_cell]; rfl, commit_moved hsc rfl hv⟩

/-- Where divide fails, no parameter decides the fault: not the operand count, not the quotient, not the new IP. -/
theorem proposalIn_divide_error {s : State} (h : s.sc.val < 2 ∨ (s.top = -128 ∧ s.second = -1) ∨ s.ip.val = 255) :
    ∃ k, ∀ p : Parameters, proposalIn p .divide s = .error k := by
  obtain hsc | hsc := Nat.lt_or_ge s.sc.val 2
  · exact ⟨.stackUnderflow, fun p => checked_error.mpr (.inl ⟨rfl, hsc⟩)⟩
  by_cases hbad : s.top = -128 ∧ s.second = -1
  · have hv (p : Parameters) : validate (Effect.replace 2 (divideResults p.remMode s)) s = .error .rangeValue :=
      validate_error.mpr (.inl ⟨rfl, fun hw => (divideResults_inWord_iff p.remMode s).mp hw hbad⟩)
    exact ⟨.rangeValue, fun p => checked_error.mpr (.inr ⟨hsc, .inr ⟨_, handlerIn_divide p s, hv p⟩⟩)⟩
  · have hip : s.ip.val = 255 := by omega
    have hv (p : Parameters) := validate_replace_rangeIp (pops := 2)
      ((divideResults_inWord_iff p.remMode s).mpr hbad) le_rfl hip
    exact ⟨.rangeIp, fun p => checked_error.mpr (.inr ⟨hsc, .inr ⟨_, handlerIn_divide p s, hv p⟩⟩)⟩

/-- Settles O59: REM_MODE enters divide's first result and nothing else. -/
theorem onlyDivideFollowsTheRemainderMode : Obligations.OnlyDivideFollowsTheRemainderMode := by
  rintro ⟨base, mode⟩
  refine ⟨fun i s hi => ?_, fun s hsc h0 hne hip => ?_, fun s hsc h0 hip => ?_, fun s h => ?_⟩
  · rw [execIn_eq, proposalIn_eq _ hi, exec_eq]
  · have hc := execIn_divide_completes ⟨base, mode⟩ hsc hne hip
    rw [divideResults, quotient_of_ne_zero _ h0] at hc
    cases mode with
    | floored => rwa [remainder_floored, Int.fmod_def] at hc
    | truncated => rwa [remainder_truncated, Int.tmod_def] at hc
  · have hc := execIn_divide_completes ⟨base, mode⟩ hsc (by omega) hip
    rwa [divideResults_of_zero _ h0] at hc
  · obtain ⟨k, hk⟩ := proposalIn_divide_error h
    rw [execIn_eq, hk, exec_eq, proposalOf, hk]

end Sys2Proof.Machine

/-! The proofs of the family of push (41_control_stack.md R122), and the order of the faults (60_exceptions.md R203). -/

namespace Sys2Proof.Machine

/-- The effect that push proposes where it has an immediate. -/
def pushEffect (imm : Word) : Effect := { pops := 0, pushes := [imm.toInt], write := none, ipDelta := 2, halt := false }

/-- The address of the immediate is in Memory exactly from below IP 255. -/
theorem inMem_immediate_iff (s : State) : inMem (s.ipInt + 1) ↔ s.ip.val < 255 := inMem_succ_ip_iff s

theorem handlerOf_push_ok (imm : Word) {s : State} (hip : s.ip.val < 255) :
    handlerOf (.push imm) s = .ok (pushEffect imm) := by
  change handlePush imm s = _
  rw [handlePush, if_neg (not_not_intro ((inMem_immediate_iff s).mpr hip)), pushEffect]

theorem handlerOf_push_error (imm : Word) {s : State} (hip : s.ip.val = 255) :
    handlerOf (.push imm) s = .error .rangeImmediateAddress := by
  change handlePush imm s = _
  rw [handlePush, if_pos (mt (inMem_immediate_iff s).mp (by omega))]

theorem pushEffect_pushesInRange (imm : Word) : (pushEffect imm).pushesInRange :=
  List.forall_mem_singleton.mpr (Word.inWord_toInt imm)

theorem pushEffect_stackInRange_iff (imm : Word) (s : State) : (pushEffect imm).stackInRange s ↔ s.sc.val < 256 := by
  simp only [Effect.stackInRange, pushEffect, Config.stackSize, Config.wordBits, List.length_singleton]
  omega

theorem pushEffect_ipInRange_iff (imm : Word) (s : State) : (pushEffect imm).ipInRange s ↔ s.ip.val ≤ 253 := by
  simp only [Effect.ipInRange, pushEffect, inMem_iff, Bool.false_eq_true, false_or]
  omega

theorem push_completes (imm : Word) {s : State} (hsc : s.sc.val < 256) (hip : s.ip.val ≤ 253) :
    Completes (.push imm) 0 [imm.toInt] 2 s := by
  have hv : validate (pushEffect imm) s = .ok (pushEffect imm) := validate_ok.mpr ⟨rfl, pushEffect_pushesInRange imm, rfl,
    (pushEffect_stackInRange_iff imm s).mpr hsc, (pushEffect_ipInRange_iff imm s).mpr hip⟩
  exact completes_of (proposalOf_ok.mpr ⟨Nat.zero_le _, handlerOf_push_ok imm (by omega), hv⟩) rfl rfl

/-- At IP 255 the handler itself fails, before the stack is looked at. -/
theorem push_failsAs_rangeImmediateAddress (imm : Word) {s : State} (hip : s.ip.val = 255) :
    FailsAs (.push imm) .rangeImmediateAddress s :=
  failsAs_of (proposalOf_error.mpr (.inr ⟨Nat.zero_le _, .inl (handlerOf_push_error imm hip)⟩))

theorem push_failsAs_rangeStackOverflow (imm : Word) {s : State} (hip : s.ip.val ≤ 254) (hsc : s.sc.val = 256) :
    FailsAs (.push imm) .rangeStackOverflow s := by
  have hst : ¬ (pushEffect imm).stackInRange s := by rw [pushEffect_stackInRange_iff]; omega
  have hv : validate (pushEffect imm) s = .error .rangeStackOverflow :=
    validate_error.mpr (.inr (.inr (.inl ⟨rfl, pushEffect_pushesInRange imm, rfl, hst⟩)))
  exact failsAs_of (proposalOf_error.mpr (.inr ⟨Nat.zero_le _, .inr ⟨_, handlerOf_push_ok imm (by omega), hv⟩⟩))

theorem push_failsAs_rangeIp (imm : Word) {s : State} (hip : s.ip.val = 254) (hsc : s.sc.val < 256) :
    FailsAs (.push imm) .rangeIp s := by
  have hnext : ¬ (pushEffect imm).ipInRange s := by rw [pushEffect_ipInRange_iff]; omega
  have hv : validate (pushEffect imm) s = .error .rangeIp := validate_error.mpr (.inr (.inr (.inr
    ⟨rfl, pushEffect_pushesInRange imm, rfl, (pushEffect_stackInRange_iff imm s).mpr hsc, hnext⟩)))
  exact failsAs_of (proposalOf_error.mpr (.inr ⟨Nat.zero_le _, .inr ⟨_, handlerOf_push_ok imm (by omega), hv⟩⟩))

/-- What makes push fail. -/
def PushFault (s : State) : FaultKind → Prop
  | .rangeImmediateAddress => s.ip.val = 255
  | .rangeStackOverflow => s.sc.val = 256
  | .rangeIp => 254 ≤ s.ip.val
  | _ => False

/-- Whatever makes push fail, the stack is full or IP is at 254 or above. -/
theorem pushFault_cases {s : State} {k : FaultKind} (h : PushFault s k) : s.sc.val = 256 ∨ 254 ≤ s.ip.val := by
  cases k with
  | rangeImmediateAddress => exact .inr (by rw [show s.ip.val = 255 from h]; omega)
  | rangeStackOverflow => exact .inl h
  | rangeIp => exact .inr h
  | _ => exact h.elim

/-- The immediate's address is checked first, then the stack, then the new IP (R203). -/
theorem failsOn_pushFault (imm : Word) (s : State) : FailsOn (.push imm) (PushFault s) s := by
  rintro ⟨k, hk⟩
  have hcause := pushFault_cases hk
  have hsc := s.sc.isLt
  have hip := s.ip.isLt
  by_cases h255 : s.ip.val = 255
  · exact ⟨.rangeImmediateAddress, h255, push_failsAs_rangeImmediateAddress imm h255⟩
  by_cases hfull : s.sc.val = 256
  · exact ⟨.rangeStackOverflow, hfull, push_failsAs_rangeStackOverflow imm (by omega) hfull⟩
  · have h254 : s.ip.val = 254 := by omega
    exact ⟨.rangeIp, h254.ge, push_failsAs_rangeIp imm h254 (by omega)⟩

/-- Settles O3: push needs no operand, so three checks decide, in this order: the immediate's address, the stack, IP. -/
theorem pushPushesItsImmediate : Obligations.PushPushesItsImmediate :=
  fun imm => ⟨rfl, fun _ => push_completes imm, failsOn_pushFault imm⟩

/-- At IP 255 a push opcode has no immediate to decode (R65). -/
theorem fetch_push_rejected {s : State} (hip : s.ip.val = 255) (hw : s.cell 255 = 2) :
    fetch s = .rejected .missingImmediate := by
  have hword : s.fetchedWord = 2 := by rw [State.fetchedWord, hip, hw]
  have hafter : s.afterOpcode = [] := by rw [afterOpcode_eq, if_neg (by omega)]
  rw [fetch, hword, hafter]
  rfl

/-- Settles O24: decoding rejects the opcode by name, and the handler of a push would fail alike. -/
theorem pushWithoutImmediateFailsTheStep : Obligations.PushWithoutImmediateFailsTheStep :=
  fun _ hr hip hw => ⟨⟨_, step_rejected hr (fetch_push_rejected hip hw), rfl⟩,
    fun imm => push_failsAs_rangeImmediateAddress imm hip⟩

/-- A handler that refuses its operand decides the fault, before any check of R105. -/
theorem load_failsAs_rangeMemoryAddress {s : State} (hsc : 1 ≤ s.sc.val) (hmem : ¬ inMem s.top) :
    FailsAs .load .rangeMemoryAddress s :=
  failsAs_of (proposalOf_error.mpr (.inr ⟨hsc, .inl (handlerOf_load_of_not_inMem hmem)⟩))

/-- An arithmetic result that is no Word decides the fault, the first check of R105. -/
theorem failsAs_rangeValue_of_result {i : Instr} {s : State} {v : Int}
    (hh : handlerOf i s = .ok (Effect.replace 2 [v])) (hp : popsOf i.operation ≤ s.sc.val) (hv : ¬ inWord v) :
    FailsAs i .rangeValue s :=
  failsAs_rangeValue hh hp (mt List.forall_mem_singleton.mp hv)

/-- Settles O28: the operand count comes first, then a handler's own check, then the checks of R105 in order. -/
theorem faultsFollowThePriorityOrder : Obligations.FaultsFollowThePriorityOrder :=
  fun s => ⟨fun _ => failsAs_stackUnderflow, fun imm => push_failsAs_rangeImmediateAddress imm,
    fun imm => push_failsAs_rangeStackOverflow imm, load_failsAs_rangeMemoryAddress, store_failsAs_rangeMemoryAddress,
    failsAs_rangeValue_of_result (i := .add) rfl, failsAs_rangeValue_of_result (i := .subtract) rfl,
    failsAs_rangeValue_of_result (i := .multiply) rfl,
    fun hsc hd he => failsAs_rangeValue (handlerIn_divide Config.parameters s) hsc
      fun hw => (divideResults_inWord_iff .floored s).mp hw ⟨hd, he⟩⟩

end Sys2Proof.Machine

/-! The proofs of the family of the step's frame (20_memory.md, 40_dispatch.md section 6, 45_jumps.md): what a step writes,
where it goes, what it reads, and what its report says of it. -/

namespace Sys2Proof.Machine

/-! Memory: only store writes it. -/

/-- The Word 4 is the opcode of store (R63). -/
theorem fetch_store_iff {s : State} : (∃ r, fetch s = .instr .store r) ↔ s.cell s.ip.val = 4 := fetch_iff_opcode rfl

theorem commit_sameMemory {e : Effect} {s : State} (hw : e.write = none) : SameMemory s (commit e s) := by
  intro a
  rw [commit_cell, hw]

theorem commit_storedAt {e : Effect} {s : State} {a v : Int} (hw : e.write = some (a, v)) (hv : inWord v) :
    StoredAt a.toNat v s (commit e s) := by
  constructor
  · rw [commit_cell, hw]
    simp only [if_true, Word.toInt_ofValue hv]
  · intro b hb
    rw [commit_cell, hw]
    simp only [if_neg hb]

/-- The checked effect of store writes `second` at `top`, that of any other instruction nothing. -/
theorem write_of_proposalOf {i : Instr} {s : State} {e : Effect} (h : proposalOf i s = .ok e) :
    e.write = if i = .store then some (s.top, s.second) else none := by
  obtain ⟨-, hhandler, -⟩ := proposalOf_ok.mp h
  exact handler_write hhandler

/-- Settles O30, by what a step can do: a fault writes no cell, and a commit writes what its instruction proposed. -/
theorem onlyStoreWritesMemory : Obligations.OnlyStoreWritesMemory := by
  intro s t hstep
  by_cases hr : s.status = .ready
  · obtain ⟨e, -, rfl⟩ | ⟨i, r, k, -, -, rfl⟩ | ⟨i, r, e, hf, hp, rfl⟩ := step_ready hr hstep
    · exact ⟨fun ⟨_, _, hok⟩ => absurd rfl hok, fun _ => takeFault_cell _ s⟩
    · exact ⟨fun ⟨_, _, hok⟩ => absurd rfl hok, fun _ => takeFault_cell _ s⟩
    · have hw := write_of_proposalOf hp
      by_cases hi : i = .store
      · subst hi
        refine ⟨fun _ => commit_storedAt hw (second_inWord s), fun hnot => absurd ?_ hnot⟩
        exact ⟨hr, fetch_store_iff.mp ⟨r, hf⟩, commit_status_ne_faulted e hr⟩
      · refine ⟨fun ⟨_, hcell, _⟩ => absurd ?_ hi, fun _ => commit_sameMemory (by rw [hw, if_neg hi])⟩
        obtain ⟨r', hf'⟩ := fetch_store_iff.mpr hcell
        cases hf.symm.trans hf'
        rfl
  · rw [step_stopped hr, Host.Outcome.next.injEq] at hstep
    subst hstep
    exact ⟨fun ⟨hr', _⟩ => absurd hr' hr, fun _ _ => rfl⟩

/-- Settles O31: a store's address is a Word, so below 128. -/
theorem upperHalfOfMemoryIsReadOnly : Obligations.UpperHalfOfMemoryIsReadOnly := by
  intro s t hstep a ha
  obtain ⟨hstore, hother⟩ := onlyStoreWritesMemory s t hstep
  by_cases h : s.status = .ready ∧ s.cell s.ip.val = 4 ∧ t.status ≠ .faulted
  · obtain ⟨-, hframe⟩ := hstore h
    have htop := (inWord_iff _).mp (top_inWord s)
    exact hframe a (by omega)
  · exact hother h a

/-! IP: it advances by 0, 1 or 2, or jumps. -/

/-- How an instruction moves IP: by 0, 1 or 2, or as a jump to a Word or to the next address. -/
theorem handler_ipDelta {i : Instr} {s : State} {e : Effect} (h : handlerOf i s = .ok e) :
    (e.ipDelta = 0 ∨ e.ipDelta = 1 ∨ e.ipDelta = 2) ∨
    ((i = .jump ∨ i = .jumpConditionally) ∧ ∃ target, inWord target ∧ e.ipDelta = target - s.ip.val) := by
  cases i with
  | push imm =>
    change handlePush imm s = _ at h
    rw [handlePush] at h
    split_ifs at h
    cases h
    exact .inl (.inr (.inr rfl))
  | load =>
    change handleLoad s = _ at h
    rw [handleLoad] at h
    split_ifs at h
    cases h
    exact .inl (.inr (.inl rfl))
  | halt => cases h; exact .inl (.inl rfl)
  | jump => cases h; exact .inr ⟨.inl rfl, s.top, top_inWord s, rfl⟩
  | jumpConditionally =>
    by_cases hone : s.top = 1
    · cases (handlerOf_jumpConditionally s).symm.trans h
      exact .inr ⟨.inr rfl, s.second, second_inWord s, by rw [jumpEffect, conditionalTarget_of_one hone]⟩
    · cases (handlerOf_jumpConditionally s).symm.trans h
      exact .inl (.inr (.inl (by rw [jumpEffect, conditionalTarget_of_ne_one hone, add_sub_cancel_left])))
  | _ => cases h; exact .inl (.inr (.inl rfl))

/-- IP after the commit of an instruction's checked effect. -/
theorem commit_ip_of_proposalOf {i : Instr} {s : State} {e : Effect} (h : proposalOf i s = .ok e) :
    ((commit e s).ip.val : Int) = s.ip.val + e.ipDelta := by
  obtain ⟨-, -, hv⟩ := proposalOf_ok.mp h
  obtain ⟨-, -, -, -, hip⟩ := validate_ok.mp hv
  by_cases hh : e.halt = true
  · obtain ⟨-, rfl⟩ := eq_halt_of_proposalOf h hh
    rw [commit_haltEffect]
    exact (Int.add_zero _).symm
  · exact commit_ip_val (Bool.not_eq_true _ ▸ hh) hip

/-- Settles O32: a jump's target is a Word, so below 128; anything else goes up by at most 2. -/
theorem upperHalfIsEnteredSequentially : Obligations.UpperHalfIsEnteredSequentially := by
  intro s t hstep
  by_cases hr : s.status = .ready
  · obtain ⟨e, -, rfl⟩ | ⟨i, r, k, -, -, rfl⟩ | ⟨i, r, e, hf, hp, rfl⟩ := step_ready hr hstep
    · exact ⟨fun _ => .inl rfl, fun h => absurd h (Nat.lt_irrefl _)⟩
    · exact ⟨fun _ => .inl rfl, fun h => absurd h (Nat.lt_irrefl _)⟩
    · have hip := commit_ip_of_proposalOf hp
      obtain ⟨-, hhandler, -⟩ := proposalOf_ok.mp hp
      obtain hdelta | ⟨hjump, target, htarget, hdelta⟩ := handler_ipDelta hhandler
      · omega
      · rw [inWord_iff] at htarget
        refine ⟨fun h => by omega, fun _ => ?_⟩
        have hop := fetch_opcode hf
        obtain rfl | rfl := hjump
        · exact .inl (BitVec.eq_of_toInt_eq hop)
        · exact .inr (BitVec.eq_of_toInt_eq hop)
  · rw [step_stopped hr, Host.Outcome.next.injEq] at hstep
    subst hstep
    exact ⟨fun _ => .inl rfl, fun h => absurd h (Nat.lt_irrefl _)⟩

/-! A stored Word is fetched (R52). -/

/-- Settles O47: `top` is IP + 1 and a Word, so the store completes and IP moves to the cell it wrote. -/
theorem storedWordIsFetchedNext : Obligations.StoredWordIsFetchedNext := by
  intro s hr hcell hsc htop
  have hword := (inWord_iff _).mp (top_inWord s)
  have hmem : inMem s.top := by rw [inMem_iff]; omega
  obtain ⟨r, hf⟩ := fetch_store_iff.mpr hcell
  obtain ⟨-, hcompletes, -⟩ := storeWritesSecondAtTop
  obtain ⟨⟨t, hexec, hmoved, hstored, -⟩, -⟩ := hcompletes s hsc hmem (by omega)
  have hfetched : t.fetchedWord.toInt = s.second := by
    have hip := hmoved.ip
    rw [State.fetchedWord, show t.ip.val = s.top.toNat by omega, hstored]
  refine ⟨t, (step_instr hr hf).trans hexec, hfetched, fun i rest hdec => ?_⟩
  have hready : t.status = .ready := hmoved.status.trans hr
  rw [← hfetched, Word.ofValue_toInt] at hdec
  exact step_instr hready hdec

/-! The report accounts for the step (R107). -/

/-- The checked effect of an instruction, committed, moves the machine as its report says; STATUS apart, a halt does too. -/
theorem commit_moved_of_proposalOf {i : Instr} {s : State} {e : Effect} (h : proposalOf i s = .ok e) :
    Moved e.pops e.pushes (if e.halt then 0 else e.ipDelta) s { commit e s with status := s.status } := by
  obtain ⟨-, -, hv⟩ := proposalOf_ok.mp h
  by_cases hh : e.halt = true
  · obtain ⟨-, rfl⟩ := eq_halt_of_proposalOf h hh
    rw [commit_haltEffect]
    exact ⟨(Int.add_zero _).symm, rfl, nofun, fun _ _ => rfl, fun _ h1 h2 => absurd h2 (Nat.not_lt.mpr h1),
      fun _ _ _ => rfl, rfl, rfl⟩
  · have hh' : e.halt = false := Bool.not_eq_true _ ▸ hh
    obtain ⟨hip, hsc, hpushed, hbelow, hvacated, habove, -, hfault⟩ := commit_moved (proposalOf_pops h) hh' hv
    rw [if_neg hh]
    exact ⟨hip, hsc, hpushed, hbelow, hvacated, habove, rfl, hfault⟩

/-- A success report from READY is that of the instruction fetched, whose checked effect the step commits. -/
theorem step_of_report_success {s t : State} {r : SuccessReport} (hr : s.status = .ready) (hstep : step s = .next t)
    (hrep : report s = .success r) : ∃ i rest e, fetch s = .instr i rest ∧ proposalOf i s = .ok e ∧ t = commit e s ∧
      r = successReport Config.opcodeBase i.operation e := by
  obtain ⟨e, hf, -⟩ | ⟨i, rest, k, hf, hp, -⟩ | ⟨i, rest, e, hf, hp, ht⟩ := step_ready hr hstep
  · cases (report_rejected hr hf).symm.trans hrep
  · cases ((report_instr hr hf).trans (reportOf_error hp)).symm.trans hrep
  · cases (report_of_commit hr hf hp).symm.trans hrep
    exact ⟨i, rest, e, hf, hp, ht, rfl⟩

/-- Settles O34: the report is the checked effect, and the step its commit. -/
theorem reportAccountsForTheStep : Obligations.ReportAccountsForTheStep := by
  intro s t r hr hstep hrep
  obtain ⟨i, rest, e, hf, hp, rfl, rfl⟩ := step_of_report_success hr hstep hrep
  obtain ⟨-, -, hv⟩ := proposalOf_ok.mp hp
  obtain ⟨-, -, hwrite, -, -⟩ := validate_ok.mp hv
  have hop := (fetch_opcode hf).symm
  have hmoved := commit_moved_of_proposalOf hp
  have hip := hmoved.ip
  have hdelta : -255 ≤ (successReport Config.opcodeBase i.operation e).ipDelta ∧
      (successReport Config.opcodeBase i.operation e).ipDelta ≤ 255 := by
    have hs := s.ip.isLt
    have ht := (commit e s).ip.isLt
    simp only [successReport]
    omega
  refine ⟨hop, hop, (commit_status_eq_halted_iff hr).symm, fun hh => ?_, fun hh => if_pos hh, proposalOf_pops hp, hmoved,
    commit_sameMemory, fun a v hw => ?_, hdelta⟩
  · exact (commit_status_eq_ready_iff hr).mpr (by rw [show e.halt = false from hh]; decide)
  · obtain ⟨ha, hword⟩ := writeFault_eq_none.mp hwrite a v hw
    exact ⟨ha, commit_storedAt hw hword⟩

/-! What an instruction reads (10_state.md section 7). -/

/-- The two states agree on everything that running `i` reads: IP, SC, the Word at IP, its operands and, for load, the cell
that `top` names. -/
structure AgreeOnReads (i : Instr) (s u : State) : Prop where
  ip : s.ip = u.ip
  sc : s.sc = u.sc
  word : s.fetchedWord = u.fetchedWord
  top : 1 ≤ popsOf i.operation → s.top = u.top
  second : 2 ≤ popsOf i.operation → s.second = u.second
  loaded : i = .load → s.cell s.top.toNat = u.cell u.top.toNat

/-- Validation reads SC and IP alone (R105). -/
theorem validate_congr {s u : State} (hip : s.ip = u.ip) (hsc : s.sc = u.sc) (e : Effect) : validate e s = validate e u := by
  simp only [validate, Effect.stackInRange, Effect.ipInRange, hip, hsc]

/-- A handler reads IP, its operands and the loaded cell alone. -/
theorem AgreeOnReads.handlerOf_eq {i : Instr} {s u : State} (h : AgreeOnReads i s u) : handlerOf i s = handlerOf i u := by
  have hip : s.ipInt = u.ipInt := by rw [State.ipInt, State.ipInt, h.ip]
  obtain ⟨-, -, -, htop, hsecond, hloaded⟩ := h
  cases i with
  | halt | noOperation | pop => rfl
  | push imm => simp only [handlerOf, handlerIn, handlePush, hip]
  | load =>
    have ht := htop le_rfl
    have hcell := hloaded rfl
    rw [ht] at hcell
    simp only [handlerOf, handlerIn, handleLoad, ht, hcell]
  | not => simp only [handlerOf, handlerIn, handleNot, htop le_rfl]
  | jump => simp only [handlerOf, handlerIn, handleJump, htop le_rfl, hip]
  | _ =>
    have ht := htop one_le_two
    have hs := hsecond le_rfl
    simp only [handlerOf, handlerIn, handleStore, handleAdd, handleSubtract, handleMultiply, handleDivideIn, handleLess,
      handleGreater, handleSame, handleDifferent, handleAnd, handleOr, handleJumpConditionally, ht, hs, hip]

theorem AgreeOnReads.proposalOf_eq {i : Instr} {s u : State} (h : AgreeOnReads i s u) :
    proposalOf i s = proposalOf i u := by
  have hh : handlerIn Config.parameters i s = handlerIn Config.parameters i u := h.handlerOf_eq
  simp only [proposalOf, proposalIn, checked, h.sc, hh, validate_congr h.ip h.sc]

/-- The fault records agree, and so do the reports. -/
theorem AgreeOnReads.reportOf_eq {i : Instr} {s u : State} (h : AgreeOnReads i s u) : reportOf i s = reportOf i u := by
  cases hp : proposalOf i u with
  | error k => rw [reportOf_error hp, reportOf_error (h.proposalOf_eq.trans hp), faultRecord, faultRecord, h.ip, h.word]
  | ok e => rw [reportOf_ok hp, reportOf_ok (h.proposalOf_eq.trans hp)]

/-- A value that two runs leave as `x'` and `y'`, from `x` and `y`, is the same after both, or both left it alone. -/
def SameOrKept {α : Type} (x y x' y' : α) : Prop := x' = y' ∨ (x' = x ∧ y' = y)

/-- The next states `t` and `v`, from `s` and `u`, agree on what the runs changed. -/
def AgreeOnChanges (s u t v : State) : Prop :=
  t.ip = v.ip ∧ t.sc = v.sc ∧ (∀ k, SameOrKept (s.slot k) (u.slot k) (t.slot k) (v.slot k)) ∧
    (∀ a, SameOrKept (s.cell a) (u.cell a) (t.cell a) (v.cell a)) ∧ SameOrKept s.status u.status t.status v.status ∧
    SameOrKept s.fault u.fault t.fault v.fault

/-- A fault taken changes STATUS and FAULT, and both to the same. -/
theorem takeFault_agreeOnChanges {s u : State} (k : FaultKind) (hip : s.ip = u.ip) (hsc : s.sc = u.sc)
    (hword : s.fetchedWord = u.fetchedWord) : AgreeOnChanges s u (takeFault k s) (takeFault k u) := by
  refine ⟨hip, hsc, fun _ => .inr ⟨rfl, rfl⟩, fun _ => .inr ⟨rfl, rfl⟩, .inl rfl, .inl ?_⟩
  rw [takeFault_fault, takeFault_fault, faultRecord, faultRecord, hip, hword]

/-- A commit changes a slot to a push or to 0, and a cell to the value written: both from the effect alone. -/
theorem commit_agreeOnChanges {s u : State} {e : Effect} (hip : s.ip = u.ip) (hsc : s.sc = u.sc) (hp : e.pops ≤ s.sc.val) :
    AgreeOnChanges s u (commit e s) (commit e u) := by
  refine ⟨by rw [commit_ip, commit_ip, hip], by rw [commit_sc, commit_sc, hsc], fun k => ?_, fun a => ?_, ?_,
    .inr ⟨rfl, rfl⟩⟩
  · rw [commit_slot e s k hp, commit_slot e u k (hsc ▸ hp), ← hsc]
    by_cases hlow : k < s.sc.val - e.pops
    · rw [if_pos hlow, if_pos hlow]
      exact .inr ⟨rfl, rfl⟩
    · rw [if_neg hlow, if_neg hlow]
      cases (e.pushes.map Word.ofValue)[k - (s.sc.val - e.pops)]? with
      | some w => exact .inl rfl
      | none =>
        simp only [Option.getD_none]
        split_ifs
        · exact .inl rfl
        · exact .inr ⟨rfl, rfl⟩
  · rw [commit_cell, commit_cell]
    cases e.write with
    | none => exact .inr ⟨rfl, rfl⟩
    | some w =>
      dsimp only
      split_ifs
      · exact .inl rfl
      · exact .inr ⟨rfl, rfl⟩
  · rw [commit_status, commit_status]
    split_ifs
    · exact .inl rfl
    · exact .inr ⟨rfl, rfl⟩

theorem AgreeOnReads.agreeOnChanges {i : Instr} {s u : State} (h : AgreeOnReads i s u) :
    AgreeOnChanges s u (conclude (proposalOf i s) s) (conclude (proposalOf i u) u) := by
  rw [← h.proposalOf_eq]
  cases hp : proposalOf i s with
  | error k => exact takeFault_agreeOnChanges k h.ip h.sc h.word
  | ok e => exact commit_agreeOnChanges h.ip h.sc (proposalOf_pops hp)

/-- Settles O33: the proposal is a function of what the instruction reads, and what it changes one of the proposal. -/
theorem effectDependsOnlyOnOperands : Obligations.EffectDependsOnlyOnOperands := by
  intro i s u hip hsc hword htop hsecond hloaded
  have h : AgreeOnReads i s u := ⟨hip, hsc, hword, htop, hsecond, hloaded⟩
  exact ⟨h.reportOf_eq, _, _, exec_eq i s, exec_eq i u, h.agreeOnChanges⟩

end Sys2Proof.Machine
